-- ==== Sys2Proof/Word.lean ====
section
/-! DEFINITION. The word types of the machine (00_scope.md R6: NREGS, REG_WIDTH, ADDR_WIDTH; R8, R9). -/

namespace Sys2Proof

/-- An 8-bit register, timer or memory cell. -/
abbrev Byte := BitVec 8

/-- A 16-bit value: `pc`, `ar`, a stack entry, an instruction word. -/
abbrev Word := BitVec 16

/-- A 4-bit field of an instruction word (30_encoding.md R72). -/
abbrev Nibble := BitVec 4

/-- The 12-bit address operand `nnn` (30_encoding.md R72, R74). -/
abbrev Addr12 := BitVec 12

/-- A register index, always in `[0, 15]` (10_state.md R23). -/
abbrev Reg := Fin 16

end Sys2Proof
end

