-- ==== Sys2Proof/Syntax.lean ====
section
/-! DEFINITION. The 35 opcodes (00_scope.md R2) with the operands of the opcode map (30_encoding.md R75), one constructor for each
row of spec/opcode_table.json, in the table's order; and what a decoder answers (40_fetch_decode.md R104). -/

namespace Sys2Proof

/-- An instruction. Operand names are the source's (R10): `reg`, `a`, `b`, `to`, `from` are register indices, `k` is a constant,
`addr` a 12-bit address. -/
inductive Instr where
  | clear                                     -- 00E0
  | ret                                       -- 00EE, Return
  | call (addr : Addr12)                      -- 0nnn
  | goto (addr : Addr12)                      -- 1nnn
  | callFunction (addr : Addr12)              -- 2nnn
  | skipEq (reg : Reg) (k : Byte)             -- 3xkk
  | skipNEq (reg : Reg) (k : Byte)            -- 4xkk
  | skipEqReg (a b : Reg)                     -- 5xy0
  | set (reg : Reg) (k : Byte)                -- 6xkk
  | addAssign (reg : Reg) (k : Byte)          -- 7xkk
  | copy (dst src : Reg)                      -- 8xy0, the source's `to` and `from`
  | or (a b : Reg)                            -- 8xy1
  | and (a b : Reg)                           -- 8xy2
  | xor (a b : Reg)                           -- 8xy3
  | addAssignReg (a b : Reg)                  -- 8xy4
  | subAssignReg (a b : Reg)                  -- 8xy5
  | shiftRight (a b : Reg)                    -- 8xy6
  | subtract (a b : Reg)                      -- 8xy7
  | shiftLeft (a b : Reg)                     -- 8xyE
  | skipNEqReg (a b : Reg)                    -- 9xy0
  | setAddressReg (addr : Addr12)             -- Annn
  | jumpOffset (ignored : Addr12)             -- Bnnn, the operand the source writes `_`
  | setRand (reg : Reg) (k : Byte)            -- Cxkk
  | draw (a b : Reg) (k : Nibble)             -- Dxyn
  | skipKeyPress (reg : Reg)                  -- Ex9E
  | skipNoKeyPress (reg : Reg)                -- ExA1
  | storeDelayTimer (reg : Reg)               -- Fx07
  | storeKeypress (reg : Reg)                 -- Fx0A
  | setDelayTimer (reg : Reg)                 -- Fx15
  | setSoundTimer (reg : Reg)                 -- Fx18
  | incrementAddressReg (reg : Reg)           -- Fx1E
  | storeSpriteAddress (reg : Reg)            -- Fx29
  | binaryCodedDecimal (reg : Reg)            -- Fx33
  | dump (reg : Reg)                          -- Fx55
  | load (reg : Reg)                          -- Fx65
deriving DecidableEq, Repr

/-- What a decoder answers on two bytes (R104): `Ok(op)`, or `Err((byte0, byte1))` for a data word (R76). -/
inductive Decoded where
  | op (i : Instr)
  | data (byte0 byte1 : Byte)
deriving DecidableEq, Repr

end Sys2Proof
end

