-- ==== Sys2Proof/WellFormed.lean ====
section
/-! DEFINITION. Which instructions a word stands for. The operand types hold every field to its width (30_encoding.md R73, R74), so
the one check left is that Call is not given the address of a word that rows 1 and 2 take first (30_encoding.md R75). -/

namespace Sys2Proof

/-- `Call(addr)` has a word of its own for every `addr` but 0x0E0 (Clear) and 0x0EE (Return) (R75, 41_control.md R120). -/
def Instr.wf : Instr → Bool
  | .call addr => addr != 0x0E0#12 && addr != 0x0EE#12
  | .clear | .ret | .goto _ | .callFunction _ | .skipEq _ _ | .skipNEq _ _ | .skipEqReg _ _ | .set _ _ | .addAssign _ _
  | .copy _ _ | .or _ _ | .and _ _ | .xor _ _ | .addAssignReg _ _ | .subAssignReg _ _ | .shiftRight _ _ | .subtract _ _
  | .shiftLeft _ _ | .skipNEqReg _ _ | .setAddressReg _ | .jumpOffset _ | .setRand _ _ | .draw _ _ _ | .skipKeyPress _
  | .skipNoKeyPress _ | .storeDelayTimer _ | .storeKeypress _ | .setDelayTimer _ | .setSoundTimer _ | .incrementAddressReg _
  | .storeSpriteAddress _ | .binaryCodedDecimal _ | .dump _ | .load _ => true

end Sys2Proof
end

