-- ==== Sys2Proof/Decode.lean ====
section
/-! DEFINITION. The decoder of 30_encoding.md (R70 to R78), total on any two bytes, and after it the encoder, written from the same
table. Following R75 the word is read high byte first; a word of no row is a data word (R76). -/

namespace Sys2Proof

/-! ### Fields (R72) -/

/-- `w = byte0 ++ byte1` (R71). -/
def wordOfBytes (byte0 byte1 : Byte) : Word := byte0 ++ byte1

/-- `w[15:8]`, the byte at the lower address (R71). -/
def highByte (w : Word) : Byte := w.extractLsb' 8 8

/-- `w[7:0]`, the byte at the higher address (R71). -/
def lowByte (w : Word) : Byte := w.extractLsb' 0 8

/-- A 4-bit field read as a register index (R74). -/
def regOfBits (b : Nibble) : Reg := b.toFin

/-- A register index as the 4 bits of a field. -/
def bitsOfReg (r : Reg) : Nibble := BitVec.ofFin r

/-- `op = w[15:12]`. -/
def opField (w : Word) : Nibble := w.extractLsb' 12 4

/-- `x = w[11:8]`. -/
def xField (w : Word) : Reg := regOfBits (w.extractLsb' 8 4)

/-- `y = w[7:4]`. -/
def yField (w : Word) : Reg := regOfBits (w.extractLsb' 4 4)

/-- `n = w[3:0]`. -/
def nField (w : Word) : Nibble := w.extractLsb' 0 4

/-- `kk = w[7:0]`. -/
def kkField (w : Word) : Byte := w.extractLsb' 0 8

/-- `nnn = w[11:0]`. -/
def nnnField (w : Word) : Addr12 := w.extractLsb' 0 12

/-! ### The decoder (R75, R76) -/

/-- Rows 1 to 3: 00E0 and 00EE come before 0nnn. -/
def decodeGroup0 (w : Word) : Option Instr :=
  if w = 0x00E0#16 then some .clear
  else if w = 0x00EE#16 then some .ret
  else some (.call (nnnField w))

/-- Rows 11 to 19: the low nibble selects. -/
def decodeGroup8 (w : Word) : Option Instr :=
  match (nField w).toNat with
  | 0x0 => some (.copy (xField w) (yField w))
  | 0x1 => some (.or (xField w) (yField w))
  | 0x2 => some (.and (xField w) (yField w))
  | 0x3 => some (.xor (xField w) (yField w))
  | 0x4 => some (.addAssignReg (xField w) (yField w))
  | 0x5 => some (.subAssignReg (xField w) (yField w))
  | 0x6 => some (.shiftRight (xField w) (yField w))
  | 0x7 => some (.subtract (xField w) (yField w))
  | 0xE => some (.shiftLeft (xField w) (yField w))
  | _ => none

/-- Rows 25 and 26: the low byte selects. -/
def decodeGroupE (w : Word) : Option Instr :=
  match (kkField w).toNat with
  | 0x9E => some (.skipKeyPress (xField w))
  | 0xA1 => some (.skipNoKeyPress (xField w))
  | _ => none

/-- Rows 27 to 35: the low byte selects. -/
def decodeGroupF (w : Word) : Option Instr :=
  match (kkField w).toNat with
  | 0x07 => some (.storeDelayTimer (xField w))
  | 0x0A => some (.storeKeypress (xField w))
  | 0x15 => some (.setDelayTimer (xField w))
  | 0x18 => some (.setSoundTimer (xField w))
  | 0x1E => some (.incrementAddressReg (xField w))
  | 0x29 => some (.storeSpriteAddress (xField w))
  | 0x33 => some (.binaryCodedDecimal (xField w))
  | 0x55 => some (.dump (xField w))
  | 0x65 => some (.load (xField w))
  | _ => none

/-- The opcode map: the instruction of the first row of R75 that `w` matches, none for a data word (R76). -/
def decodeWord (w : Word) : Option Instr :=
  match (opField w).toNat with
  | 0x0 => decodeGroup0 w
  | 0x1 => some (.goto (nnnField w))
  | 0x2 => some (.callFunction (nnnField w))
  | 0x3 => some (.skipEq (xField w) (kkField w))
  | 0x4 => some (.skipNEq (xField w) (kkField w))
  | 0x5 => if nField w = 0 then some (.skipEqReg (xField w) (yField w)) else none
  | 0x6 => some (.set (xField w) (kkField w))
  | 0x7 => some (.addAssign (xField w) (kkField w))
  | 0x8 => decodeGroup8 w
  | 0x9 => if nField w = 0 then some (.skipNEqReg (xField w) (yField w)) else none
  | 0xA => some (.setAddressReg (nnnField w))
  | 0xB => some (.jumpOffset (nnnField w))
  | 0xC => some (.setRand (xField w) (kkField w))
  | 0xD => some (.draw (xField w) (yField w) (nField w))
  | 0xE => decodeGroupE w
  | 0xF => decodeGroupF w
  | _ => none

/-- `DECODE(byte0, byte1)` (R75 to R77): total and pure. A word of no row is rejected by name, as the data word of its bytes. -/
def decode (byte0 byte1 : Byte) : Decoded :=
  match decodeWord (wordOfBytes byte0 byte1) with
  | some i => .op i
  | none => .data byte0 byte1

/-- The host's question: the instruction of the table word `w`, whose bit 0 is the least significant bit of the one 16-bit word
of an instruction (R70), so that `w[15:8]` is the byte at the lower address (R71). Bits from `nbits` on are 0. -/
def decodeTableWord (nbits w : Nat) : Option Instr :=
  let word : Word := BitVec.ofNat 16 (w % 2 ^ nbits)
  match decode (highByte word) (lowByte word) with
  | .op i => some i
  | .data _ _ => none

/-! ### The encoder: the formats of R73 -/

/-- Format `A`. -/
def wordA (op : Nibble) (nnn : Addr12) : Word := op ++ nnn

/-- Formats `XK` and `X` (whose low byte is fixed). -/
def wordXK (op : Nibble) (x : Reg) (kk : Byte) : Word := op ++ bitsOfReg x ++ kk

/-- Formats `XYN` and `XY` (whose low nibble is fixed). -/
def wordXYN (op : Nibble) (x y : Reg) (n : Nibble) : Word := op ++ bitsOfReg x ++ bitsOfReg y ++ n

/-- The word of an instruction, by its row of R75. -/
def encode : Instr → Word
  | .clear => 0x00E0#16
  | .ret => 0x00EE#16
  | .call addr => wordA 0x0#4 addr
  | .goto addr => wordA 0x1#4 addr
  | .callFunction addr => wordA 0x2#4 addr
  | .skipEq reg k => wordXK 0x3#4 reg k
  | .skipNEq reg k => wordXK 0x4#4 reg k
  | .skipEqReg a b => wordXYN 0x5#4 a b 0x0#4
  | .set reg k => wordXK 0x6#4 reg k
  | .addAssign reg k => wordXK 0x7#4 reg k
  | .copy dst src => wordXYN 0x8#4 dst src 0x0#4
  | .or a b => wordXYN 0x8#4 a b 0x1#4
  | .and a b => wordXYN 0x8#4 a b 0x2#4
  | .xor a b => wordXYN 0x8#4 a b 0x3#4
  | .addAssignReg a b => wordXYN 0x8#4 a b 0x4#4
  | .subAssignReg a b => wordXYN 0x8#4 a b 0x5#4
  | .shiftRight a b => wordXYN 0x8#4 a b 0x6#4
  | .subtract a b => wordXYN 0x8#4 a b 0x7#4
  | .shiftLeft a b => wordXYN 0x8#4 a b 0xE#4
  | .skipNEqReg a b => wordXYN 0x9#4 a b 0x0#4
  | .setAddressReg addr => wordA 0xA#4 addr
  | .jumpOffset ignored => wordA 0xB#4 ignored
  | .setRand reg k => wordXK 0xC#4 reg k
  | .draw a b k => wordXYN 0xD#4 a b k
  | .skipKeyPress reg => wordXK 0xE#4 reg 0x9E#8
  | .skipNoKeyPress reg => wordXK 0xE#4 reg 0xA1#8
  | .storeDelayTimer reg => wordXK 0xF#4 reg 0x07#8
  | .storeKeypress reg => wordXK 0xF#4 reg 0x0A#8
  | .setDelayTimer reg => wordXK 0xF#4 reg 0x15#8
  | .setSoundTimer reg => wordXK 0xF#4 reg 0x18#8
  | .incrementAddressReg reg => wordXK 0xF#4 reg 0x1E#8
  | .storeSpriteAddress reg => wordXK 0xF#4 reg 0x29#8
  | .binaryCodedDecimal reg => wordXK 0xF#4 reg 0x33#8
  | .dump reg => wordXK 0xF#4 reg 0x55#8
  | .load reg => wordXK 0xF#4 reg 0x65#8

/-! ### The table's mask and match of each row (spec/opcode_table.json) -/

/-- The mask of the instruction's row: 1 at each fixed bit. -/
def tableMask : Instr → Word
  | .clear | .ret => 0xFFFF#16
  | .call _ | .goto _ | .callFunction _ | .skipEq _ _ | .skipNEq _ _ | .set _ _ | .addAssign _ _ | .setAddressReg _
  | .jumpOffset _ | .setRand _ _ | .draw _ _ _ => 0xF000#16
  | .skipEqReg _ _ | .copy _ _ | .or _ _ | .and _ _ | .xor _ _ | .addAssignReg _ _ | .subAssignReg _ _ | .shiftRight _ _
  | .subtract _ _ | .shiftLeft _ _ | .skipNEqReg _ _ => 0xF00F#16
  | .skipKeyPress _ | .skipNoKeyPress _ | .storeDelayTimer _ | .storeKeypress _ | .setDelayTimer _ | .setSoundTimer _
  | .incrementAddressReg _ | .storeSpriteAddress _ | .binaryCodedDecimal _ | .dump _ | .load _ => 0xF0FF#16

/-- The match of the instruction's row: the values of the fixed bits. -/
def tableMatch : Instr → Word
  | .clear => 0x00E0#16
  | .ret => 0x00EE#16
  | .call _ => 0x0000#16
  | .goto _ => 0x1000#16
  | .callFunction _ => 0x2000#16
  | .skipEq _ _ => 0x3000#16
  | .skipNEq _ _ => 0x4000#16
  | .skipEqReg _ _ => 0x5000#16
  | .set _ _ => 0x6000#16
  | .addAssign _ _ => 0x7000#16
  | .copy _ _ => 0x8000#16
  | .or _ _ => 0x8001#16
  | .and _ _ => 0x8002#16
  | .xor _ _ => 0x8003#16
  | .addAssignReg _ _ => 0x8004#16
  | .subAssignReg _ _ => 0x8005#16
  | .shiftRight _ _ => 0x8006#16
  | .subtract _ _ => 0x8007#16
  | .shiftLeft _ _ => 0x800E#16
  | .skipNEqReg _ _ => 0x9000#16
  | .setAddressReg _ => 0xA000#16
  | .jumpOffset _ => 0xB000#16
  | .setRand _ _ => 0xC000#16
  | .draw _ _ _ => 0xD000#16
  | .skipKeyPress _ => 0xE09E#16
  | .skipNoKeyPress _ => 0xE0A1#16
  | .storeDelayTimer _ => 0xF007#16
  | .storeKeypress _ => 0xF00A#16
  | .setDelayTimer _ => 0xF015#16
  | .setSoundTimer _ => 0xF018#16
  | .incrementAddressReg _ => 0xF01E#16
  | .storeSpriteAddress _ => 0xF029#16
  | .binaryCodedDecimal _ => 0xF033#16
  | .dump _ => 0xF055#16
  | .load _ => 0xF065#16

end Sys2Proof
end

