-- ==== Sys2Proof/Config.lean ====
section
/-! DEFINITION. What the spec leaves to the implementation: the type of its parameters (00_scope.md R6, R7; 10_state.md R38) and the
free readings of the time source (60_exceptions.md R240). The values of the parameters stand in Sys2Proof/Machine/Params.lean. -/

namespace Sys2Proof

/-- The four LEGACY_* parameters of R6. A parameter that is true selects the behaviour the source ascribes to the
reference code (R7): DESIGN CHOICE, log 2, for where they are held. -/
structure Legacy where
  /-- LEGACY_ADD_ASSIGN: AddAssign by R144 and not by R143. -/
  addAssign : Bool
  /-- LEGACY_SHL_MASK: the flag of ShiftLeft by R154 and not by R153. -/
  shlMask : Bool
  /-- LEGACY_DUMP_LOAD: Dump and Load by R174 and R175 and not by R172 and R173. -/
  dumpLoad : Bool
  /-- LEGACY_COARSE_TIMER: the decrement by R242 and not by R241. -/
  coarseTimer : Bool
deriving DecidableEq, Repr

/-- The parameters of R6 that the rules name: the sizes that OPEN-3 of 92_eei_decisions.md leaves open, and the LEGACY_*
parameters. DECODE is an argument of its own (30_encoding.md R82). The rules write NREGS, the widths, FLAG_REG and INSN_WIDTH as
literals, so these are in the types and constants of the model (DESIGN CHOICE, log 1). -/
structure Params where
  /-- MEM_SIZE: bytes of memory. -/
  memSize : Nat
  /-- LOAD_BASE: where the program image lands, and the reset value of `pc`. -/
  loadBase : Nat
  /-- LOAD_LIMIT: the first address that is not loaded. -/
  loadLimit : Nat
  /-- STACK_CAP: entries of the call stack. -/
  stackCap : Nat
  /-- TICK_RATE: ticks per second. -/
  tickRate : Nat
  /-- The LEGACY_* parameters. -/
  legacy : Legacy
deriving DecidableEq, Repr

/-- FREE VALUE (log 4, safe). The `n`-th reading of the time source that no injected reading stands for: TICK pulses since the
last decay, or the clock in whole seconds (60_exceptions.md R240 to R242). It has no body, so nothing is known of it. -/
opaque Config.timeReading : Nat → Nat

end Sys2Proof
end

