-- ==== Sys2Proof/Machine/Params.lean ====
section
/-! DEFINITION. The value each parameter of 00_scope.md R6 takes on this hardware (DESIGN CHOICE to fix them, log 1; unsafe where a
literal of the source is wrong). They stand here and not in Config.lean so that a later repair may mend a value. -/

namespace Sys2Proof.Machine

/-- MEM_SIZE: 4096 bytes, addresses 0 to 4095. -/
def memSize : Nat := 4096

/-- LOAD_BASE: where the program image lands, and the reset value of `pc`. -/
def loadBase : Nat := 0x200

/-- LOAD_LIMIT: the first address that is not loaded. -/
def loadLimit : Nat := 0xEA0

/-- STACK_CAP: entries of the call stack. -/
def stackCap : Nat := 24

/-- TICK_RATE: ticks per second. -/
def tickRate : Nat := 60

/-- INSN_WIDTH: bytes of one instruction. -/
def insnWidth : Nat := 2

/-- FLAG_REG: the flag register is `x[15]` (10_state.md R21). -/
def flagReg : Reg := 15

/-- The LEGACY_* parameters of this hardware: all false (R6, R7). -/
def hardwareLegacy : Legacy := { addAssign := false, shlMask := false, dumpLoad := false, coarseTimer := false }

/-- The parameters of this hardware, which `step` runs with (R6). -/
def hardwareParams : Params :=
  { memSize := memSize, loadBase := loadBase, loadLimit := loadLimit, stackCap := stackCap, tickRate := tickRate,
    legacy := hardwareLegacy }

end Sys2Proof.Machine
end

