-- ==== Sys2Proof/Machine/State.lean ====
section
/-! DEFINITION. The machine's state: every piece of 10_state.md (R20 to R37), the hidden state of R36, and the model's own fields
that INVENTORY.md lists; its value after reset; and the two ways a step could stop. -/

namespace Sys2Proof.Machine

/-- Memory: the non-zero cells, in rising order of address. An unlisted address reads 0, the reset value of R37. -/
abbrev Memory := List Host.Cell

/-- The register file `x[0]` to `x[15]` (R20). -/
abbrev RegFile := Vector Byte 16

/-- The causes of 60_exceptions.md R223 (DEDUCED, log 11, safe: the unused codes cannot be held). -/
inductive FaultCause where
  /-- Code 0: the reset value; raised by nothing. -/
  | none
  /-- Code 1: raised by the fetch when `pc > MEM_SIZE - 2` (R102). -/
  | fetchRange
  /-- Code 2: raised by Dump and Load when a byte would fall outside memory (R172, R173). -/
  | memRange
  /-- Code 3: raised by CallFunction on a full stack (R123). -/
  | stackOverflow
  /-- Code 4: raised by the legacy Dump and Load when an index exceeds 15 (R174, R175). -/
  | legacyIndexRange
deriving DecidableEq, Repr

/-- The fault record (R32). The engine is halted exactly when `valid` holds (R33). -/
structure FaultRecord where
  valid : Bool
  cause : FaultCause
  pc    : Word
  info  : Word
deriving DecidableEq, Repr

/-- The hidden state of the timer unit (R36) and the time source that the environment supplies (60_exceptions.md R240). -/
structure Clock where
  /-- The pending-tick counter (R241). -/
  pendingTicks : Byte
  /-- The timer reference `last`, in whole seconds from construction (R242): DESIGN CHOICE for the origin, log 5. -/
  lastSample : Nat
  /-- The model's own: the readings an injected time source gives in the coming cycles (log 4, safe). -/
  injected : List Nat
  /-- The model's own: how many free readings have been taken (log 4, safe). -/
  reads : Nat
deriving DecidableEq, Repr

/-- A trace record: `(pc, dt, st, DECODE(byte0, byte1))`, after decode and before execute (R236). -/
structure TraceRecord where
  pc      : Word
  dt      : Byte
  st      : Byte
  decoded : Decoded
deriving DecidableEq, Repr

/-- A diagnostic record (R238). -/
inductive Diag where
  /-- A data word `w` at `pc` (R105). -/
  | dataWord (pc w : Word)
  /-- A Return on an empty stack at `pc` (R121). -/
  | emptyReturn (pc : Word)
deriving DecidableEq, Repr

/-- The output ports (R236 to R238) with what the last cycle put on them: DESIGN CHOICE, log 7. No rule reads them. -/
structure Ports where
  trace  : Option TraceRecord
  intent : Option Instr
  diag   : Option Diag
deriving DecidableEq, Repr

/-- The state. -/
structure State where
  /-- `x[0]` to `x[15]` (R20, R21). -/
  regs   : RegFile
  /-- The program counter (R24, R25). -/
  pc     : Word
  /-- The address register (R26). -/
  ar     : Word
  /-- The call stack, the last entry on top (R27, R28; R9). -/
  stack  : List Word
  /-- The delay timer (R29). -/
  dt     : Byte
  /-- The sound timer (R30). -/
  st     : Byte
  /-- Memory (R31). -/
  mem    : Memory
  /-- The fault record and with it the halt state (R32, R33). -/
  fault  : FaultRecord
  /-- The timer unit's hidden state (R36). -/
  clock  : Clock
  /-- The records of the last cycle on the output ports (R236 to R238). -/
  ports  : Ports
  /-- The LEGACY_* parameters (R6, R7; log 2, safe: a statement covers every value). -/
  legacy : Legacy
deriving DecidableEq, Repr

/-- Why a step of the MODEL would stop. It has no constructor: the spec gives every out-of-range case a reported fault
(R222 to R225), which is a next state with the fault record written, so no step stops (DEDUCED, log 9, safe). -/
inductive Fault where
deriving DecidableEq, Repr

/-- Why an instruction would have no meaning. -/
inductive Refusal where
  /-- Raised by nothing: an arm of exec whose instruction had no meaning would raise it. Safe: the machine stops by name. -/
  | notModelled (mnemonic : String)
deriving DecidableEq, Repr

/-- What an instruction and a step answer. -/
abbrev Answer := Host.Outcome State Fault Refusal

/-- A clear fault record (R32, R37). -/
def FaultRecord.clear : FaultRecord := { valid := false, cause := .none, pc := 0, info := 0 }

/-- No pending ticks and the reference at construction (R37). -/
def Clock.reset : Clock := { pendingTicks := 0, lastSample := 0, injected := [], reads := 0 }

/-- Ports with nothing on them. -/
def Ports.silent : Ports := { trace := none, intent := none, diag := none }

/-- The machine after reset with the empty image (R37, R251, R253; log 10): `pc` at LOAD_BASE, everything else 0, empty or
clear. -/
def State.reset : State where
  regs   := Vector.replicate 16 0
  pc     := BitVec.ofNat 16 loadBase
  ar     := 0
  stack  := []
  dt     := 0
  st     := 0
  mem    := []
  fault  := FaultRecord.clear
  clock  := Clock.reset
  ports  := Ports.silent
  legacy := hardwareLegacy

end Sys2Proof.Machine
end

