-- ==== Sys2Proof/Machine/Ops.lean ====
section
/-! DEFINITION. The named operations over registers, the stack, memory and the ports, the advance of `pc`, and fault entry. Every
meaning is written over these. -/

namespace Sys2Proof.Machine

/-! ### One update for each field -/

def setRegs (v : RegFile) (s : State) : State := { s with regs := v }
def setPc (v : Word) (s : State) : State := { s with pc := v }
def setAr (v : Word) (s : State) : State := { s with ar := v }
def setStack (v : List Word) (s : State) : State := { s with stack := v }
def setDt (v : Byte) (s : State) : State := { s with dt := v }
def setSt (v : Byte) (s : State) : State := { s with st := v }
def setMem (v : Memory) (s : State) : State := { s with mem := v }
def setFault (v : FaultRecord) (s : State) : State := { s with fault := v }
def setClock (v : Clock) (s : State) : State := { s with clock := v }
def setPorts (v : Ports) (s : State) : State := { s with ports := v }
def setLegacy (v : Legacy) (s : State) : State := { s with legacy := v }

/-! ### The parameters (00_scope.md R6; 10_state.md R38) -/

/-- The parameters that `exec` and `step` run with: this hardware's sizes, and the LEGACY_* parameters that the state carries
for them (DESIGN CHOICE, log 2, safe). -/
def carriedParams (s : State) : Params := { hardwareParams with legacy := s.legacy }

/-! ### Registers (10_state.md R20 to R23; 00_scope.md R9) -/

/-- The value of a register in a register file. No register is hardwired (R20). -/
def readAt (rs : RegFile) (r : Reg) : Byte := rs[r]

/-- A register file with one register written. -/
def writeAt (rs : RegFile) (r : Reg) (v : Byte) : RegFile := rs.set r v

/-- `x[r]`. -/
def readReg (r : Reg) (s : State) : Byte := readAt s.regs r

/-- `x[r] <- v`. -/
def writeReg (r : Reg) (v : Byte) (s : State) : State := setRegs (writeAt s.regs r v) s

/-- The register whose index is `n`, for `n <= 15` (R23). -/
def regNo (n : Nat) : Reg := Fin.ofNat 16 n

/-! ### The program counter (R24, R25; 40_fetch_decode.md R107) -/

/-- `pc <- pc + 2`, the default advance, modulo 65536. -/
def advance (s : State) : State := setPc (s.pc + BitVec.ofNat 16 insnWidth) s

/-- A skip: `pc + 4` when the condition holds, else `pc + 2` (R107). -/
def skipIf (c : Bool) (s : State) : State :=
  setPc (s.pc + BitVec.ofNat 16 (if c then 2 * insnWidth else insnWidth)) s

/-! ### The call stack (R27; R9) -/

/-- `depth`. -/
def depth (s : State) : Nat := s.stack.length

/-- `push(v)`: appends `v`. -/
def push (v : Word) (s : State) : State := setStack (s.stack ++ [v]) s

/-- `pop()`: the last entry and the state without it, none when the stack is empty. -/
def pop (s : State) : Option (Word × State) :=
  match s.stack.getLast? with
  | some t => some (t, setStack s.stack.dropLast s)
  | none => none

/-! ### Memory (20_memory.md R50 to R56; R9). Callers check the bound first (R60; DESIGN CHOICE, log 12, unsafe outside memory). -/

/-- The byte at an address: the listed one, or 0, which R37 gives every cell at reset. -/
def Memory.read : Memory → Nat → Byte
  | [], _ => 0
  | c :: rest, a => if c.1 = a then c.2 else Memory.read rest a

/-- Memory without an entry for an address. -/
def Memory.without (m : Memory) (a : Nat) : Memory := m.filter fun c => c.1 != a

/-- Memory with an entry put before the first entry of a higher address. -/
def Memory.place (a : Nat) (v : Byte) : Memory → Memory
  | [] => [(a, v)]
  | c :: rest => if a < c.1 then (a, v) :: c :: rest else c :: Memory.place a v rest

/-- One byte written, in canonical form: a 0 is not listed. -/
def Memory.write (m : Memory) (a : Nat) (v : Byte) : Memory :=
  if v = 0 then Memory.without m a else Memory.place a v (Memory.without m a)

/-- The canonical form: addresses strictly rising and no listed 0. -/
abbrev Memory.wf (m : Memory) : Prop := m.Pairwise (fun c d => c.1 < d.1) ∧ ∀ c ∈ m, c.2 ≠ 0

/-- No listed cell is outside a memory of `size` bytes. -/
abbrev Memory.inRange (size : Nat) (m : Memory) : Prop := ∀ c ∈ m, c.1 < size

/-- `MemRead(a, 1)`. -/
def readByte (a : Nat) (s : State) : Byte := Memory.read s.mem a

/-- `MemWrite(a, 1, v)`. -/
def writeByte (a : Nat) (v : Byte) (s : State) : State := setMem (Memory.write s.mem a v) s

/-- `mem[pc]` (40_fetch_decode.md R103). -/
def fetchByte0 (s : State) : Byte := readByte s.pc.toNat s

/-- `mem[pc+1]` (R103). -/
def fetchByte1 (s : State) : Byte := readByte (s.pc.toNat + 1) s

/-! ### Ports (60_exceptions.md R236 to R238; DESIGN CHOICE, log 7, safe for the spec's state) -/

/-- Nothing on any port: how a cycle begins. -/
def clearPorts (s : State) : State := setPorts Ports.silent s

/-- `emit Trace(pc, dt, st, r)` (R236). -/
def emitTrace (d : Decoded) (s : State) : State :=
  setPorts { s.ports with trace := some { pc := s.pc, dt := s.dt, st := s.st, decoded := d } } s

/-- `emit Intent(op)` (R237). -/
def emitIntent (i : Instr) (s : State) : State := setPorts { s.ports with intent := some i } s

/-- `emit Diag(event)` (R238). -/
def emitDiag (d : Diag) (s : State) : State := setPorts { s.ports with diag := some d } s

/-! ### Fault entry (60_exceptions.md R223 to R227) -/

/-- The code of a cause (R223). -/
def FaultCause.code : FaultCause → BitVec 3
  | .none => 0
  | .fetchRange => 1
  | .memRange => 2
  | .stackOverflow => 3
  | .legacyIndexRange => 4

/-- `raise Fault(cause, info)`: the record is written and nothing else changes (R224). The cycle then ends. There is no return
from it but reset (R230): `hostReset` in Sys2Proof/Machine/HostInterface.lean. -/
def raiseFault (cause : FaultCause) (info : Word) (s : State) : State :=
  setFault { valid := true, cause := cause, pc := s.pc, info := info } s

/-- The engine is halted exactly when `fault.valid` holds (R33). -/
def halted (s : State) : Bool := s.fault.valid

end Sys2Proof.Machine
end

