-- ==== Sys2Proof/Machine/Operands.lean ====
section
/-! DEFINITION. Operand forms: the 12-bit address (30_encoding.md R74) and the blocks of registers that Dump and Load move through
the address register (43_address_memory.md, "address register, post-incremented"), with their checks. -/

namespace Sys2Proof.Machine

/-- `zext_16(addr)` (R74). -/
def zext16 (addr : Addr12) : Word := addr.setWidth 16

/-! ### The corrected block (R172, R173) -/

/-- `ar + reg > MEM_SIZE - 1`, in unbounded integers: some byte of the block is outside a memory of `size` bytes. -/
def blockOutside (size : Nat) (ar : Word) (reg : Reg) : Bool := decide (ar.toNat + reg.val + 1 > size)

/-- The first `n` registers stored from address `a` on, in ascending order. -/
def storeBlock (m : Memory) (rs : RegFile) (a : Nat) : Nat → Memory
  | 0 => m
  | n + 1 => Memory.write (storeBlock m rs a n) (a + n) (readAt rs (regNo n))

/-- The first `n` registers loaded from address `a` on, in ascending order. -/
def loadBlock (m : Memory) (rs : RegFile) (a : Nat) : Nat → RegFile
  | 0 => rs
  | n + 1 => writeAt (loadBlock m rs a n) (regNo n) (Memory.read m (a + n))

/-! ### The legacy block (R174, R175; UNVERIFIED against the repository, log 16) -/

/-- `(ar + i) mod 256`. -/
def legacyIndex (ar : Word) (i : Nat) : Nat := (ar.toNat + i) % 256

/-- Some index of the block exceeds 15. -/
def legacyIndexOutside (ar : Word) (reg : Reg) : Bool :=
  (List.range (reg.val + 1)).any fun i => decide (legacyIndex ar i > 15)

/-- `x[(ar + i) mod 256] <- x[i]` for the first `n` indices, one after another (R174). -/
def legacyDumpBlock (rs : RegFile) (ar : Word) : Nat → RegFile
  | 0 => rs
  | n + 1 =>
    let now := legacyDumpBlock rs ar n
    writeAt now (regNo (legacyIndex ar n)) (readAt now (regNo n))

/-- `x[i] <- x[(ar + i) mod 256]` for the first `n` indices, one after another (R175). -/
def legacyLoadBlock (rs : RegFile) (ar : Word) : Nat → RegFile
  | 0 => rs
  | n + 1 =>
    let now := legacyLoadBlock rs ar n
    writeAt now (regNo n) (readAt now (regNo (legacyIndex ar n)))

/-- `ar <- ar + reg + 1`, modulo 65536 (R172 to R175). -/
def bumpAr (reg : Reg) (s : State) : State := setAr (s.ar + BitVec.ofNat 16 (reg.val + 1)) s

end Sys2Proof.Machine
end

