-- ==== Sys2Proof/Machine/AddressMemory.lean ====
section
/-! DEFINITION. The address register, Dump and Load (43_address_memory.md R170 to R175). -/

namespace Sys2Proof.Machine

/-- SetAddressReg(addr) (R170). -/
def execSetAddressReg (addr : Addr12) (s : State) : Answer := .next (advance (setAr (zext16 addr) s))

/-- IncrementAddressReg(reg): 16 bits, no flag (R171). -/
def execIncrementAddressReg (reg : Reg) (s : State) : Answer :=
  .next (advance (setAr (s.ar + (readReg reg s).setWidth 16) s))

/-- Dump by R172: the whole block is checked before any write. -/
def dumpToMemory (size : Nat) (reg : Reg) (s : State) : Answer :=
  if blockOutside size s.ar reg then .next (raiseFault .memRange s.ar s)
  else .next (advance (bumpAr reg (setMem (storeBlock s.mem s.regs s.ar.toNat (reg.val + 1)) s)))

/-- Dump by R174, the legacy form: into the register file. -/
def dumpToRegisters (reg : Reg) (s : State) : Answer :=
  if legacyIndexOutside s.ar reg then .next (raiseFault .legacyIndexRange s.ar s)
  else .next (advance (bumpAr reg (setRegs (legacyDumpBlock s.regs s.ar (reg.val + 1)) s)))

/-- Load by R173: the whole block is checked before any read. -/
def loadFromMemory (size : Nat) (reg : Reg) (s : State) : Answer :=
  if blockOutside size s.ar reg then .next (raiseFault .memRange s.ar s)
  else .next (advance (bumpAr reg (setRegs (loadBlock s.mem s.regs s.ar.toNat (reg.val + 1)) s)))

/-- Load by R175, the legacy form: from the register file. -/
def loadFromRegisters (reg : Reg) (s : State) : Answer :=
  if legacyIndexOutside s.ar reg then .next (raiseFault .legacyIndexRange s.ar s)
  else .next (advance (bumpAr reg (setRegs (legacyLoadBlock s.regs s.ar (reg.val + 1)) s)))

/-- Dump(reg) with a memory of MEM_SIZE bytes (R172; with LEGACY_DUMP_LOAD R174). -/
def dumpWith (p : Params) (reg : Reg) (s : State) : Answer :=
  if p.legacy.dumpLoad then dumpToRegisters reg s else dumpToMemory p.memSize reg s

/-- Load(reg) with a memory of MEM_SIZE bytes (R173; with LEGACY_DUMP_LOAD R175). -/
def loadWith (p : Params) (reg : Reg) (s : State) : Answer :=
  if p.legacy.dumpLoad then loadFromRegisters reg s else loadFromMemory p.memSize reg s

/-- Dump(reg) (R172, R174). -/
def execDump (reg : Reg) (s : State) : Answer := dumpWith (carriedParams s) reg s

/-- Load(reg) (R173, R175). -/
def execLoad (reg : Reg) (s : State) : Answer := loadWith (carriedParams s) reg s

end Sys2Proof.Machine
end

