-- ==== Sys2Proof/Machine/Flags.lean ====
section
/-! DEFINITION. The flag register's one path and every flag computation (42_alu.md R140, R141, R149 to R154). -/

namespace Sys2Proof.Machine

/-- `set_flag(v)`: `x[15] <- v` (R141). -/
def setFlag (v : Byte) (s : State) : State := writeReg flagReg v s

/-- A flag of 1 or 0. -/
def flagOf (b : Bool) : Byte := if b then 1 else 0

/-- The addition overflows 8 bits (R149). -/
def carryOut (va vb : Byte) : Bool := decide (va.toNat + vb.toNat > 255)

/-- The subtraction `v - w` underflows: the true difference is negative (R150, R151). -/
def borrowOut (v w : Byte) : Bool := decide (w.toNat > v.toNat)

/-- The bit a right shift by one shifts out: bit 0 (R152). -/
def shiftRightFlag (v : Byte) : Byte := flagOf (v.getLsbD 0)

/-- The flag of a left shift by one: bit 7 as 0 or 1 (R153); with LEGACY_SHL_MASK `v AND 0x08`, 0 or 8 (R154, log 16). -/
def shiftLeftFlag (legacyMask : Bool) (v : Byte) : Byte := if legacyMask then v &&& 0x08#8 else flagOf (v.getLsbD 7)

end Sys2Proof.Machine
end

