-- ==== Sys2Proof/Machine/Alu.lean ====
section
/-! DEFINITION. Register file and ALU (42_alu.md R140 to R155): every source is read from the state before the instruction, the
results are written in the order of the rule, and the flag last (R140). -/

namespace Sys2Proof.Machine

/-- The end of an instruction without a flag: `x[r] <- v; pc <- pc + 2`. -/
def finishReg (r : Reg) (v : Byte) (s : State) : Answer := .next (advance (writeReg r v s))

/-- The end of an arithmetic instruction with a flag: `x[r] <- v; set_flag(f); pc <- pc + 2` (R149 to R151). -/
def finishRegFlag (r : Reg) (v f : Byte) (s : State) : Answer := .next (advance (setFlag f (writeReg r v s)))

/-- The end of a shift: `x[a] <- v; x[b] <- v; set_flag(f); pc <- pc + 2` (R152 to R154). -/
def finishShift (a b : Reg) (v f : Byte) (s : State) : Answer :=
  .next (advance (setFlag f (writeReg b v (writeReg a v s))))

/-- Set(reg, k) (R142). -/
def execSet (reg : Reg) (k : Byte) (s : State) : Answer := finishReg reg k s

/-- AddAssign(reg, k): the value plus `k`, no flag (R143); with LEGACY_ADD_ASSIGN the index plus `k` (R144, log 16). -/
def addAssignWith (p : Params) (reg : Reg) (k : Byte) (s : State) : Answer :=
  finishReg reg ((if p.legacy.addAssign then BitVec.ofNat 8 reg.val else readReg reg s) + k) s

/-- AddAssign(reg, k) (R143, R144). -/
def execAddAssign (reg : Reg) (k : Byte) (s : State) : Answer := addAssignWith (carriedParams s) reg k s

/-- Copy(to, from) (R145). -/
def execCopy (dst src : Reg) (s : State) : Answer := finishReg dst (readReg src s) s

/-- Or(a, b) (R146). -/
def execOr (a b : Reg) (s : State) : Answer := finishReg a (readReg a s ||| readReg b s) s

/-- And(a, b) (R147). -/
def execAnd (a b : Reg) (s : State) : Answer := finishReg a (readReg a s &&& readReg b s) s

/-- Xor(a, b) (R148). -/
def execXor (a b : Reg) (s : State) : Answer := finishReg a (readReg a s ^^^ readReg b s) s

/-- AddAssignReg(a, b): the flag is the carry (R149). -/
def execAddAssignReg (a b : Reg) (s : State) : Answer :=
  finishRegFlag a (readReg a s + readReg b s) (flagOf (carryOut (readReg a s) (readReg b s))) s

/-- SubAssignReg(a, b): `a - b`, the flag is the borrow (R150). -/
def execSubAssignReg (a b : Reg) (s : State) : Answer :=
  finishRegFlag a (readReg a s - readReg b s) (flagOf (borrowOut (readReg a s) (readReg b s))) s

/-- ShiftRight(a, b) (R152). -/
def execShiftRight (a b : Reg) (s : State) : Answer :=
  finishShift a b (readReg b s >>> 1) (shiftRightFlag (readReg b s)) s

/-- Subtract(a, b): `b - a`, the flag is the borrow (R151). -/
def execSubtract (a b : Reg) (s : State) : Answer :=
  finishRegFlag a (readReg b s - readReg a s) (flagOf (borrowOut (readReg b s) (readReg a s))) s

/-- ShiftLeft(a, b): the flag is bit 7 (R153); with LEGACY_SHL_MASK the value masked with 8 (R154). -/
def shiftLeftWith (p : Params) (a b : Reg) (s : State) : Answer :=
  finishShift a b (readReg b s <<< 1) (shiftLeftFlag p.legacy.shlMask (readReg b s)) s

/-- ShiftLeft(a, b) (R153, R154). -/
def execShiftLeft (a b : Reg) (s : State) : Answer := shiftLeftWith (carriedParams s) a b s

end Sys2Proof.Machine
end

