-- ==== Sys2Proof/Machine/Control.lean ====
section
/-! DEFINITION. Control transfer (41_control.md R120 to R130). -/

namespace Sys2Proof.Machine

/-- Call(addr) is a no-op on state (R120); `addr` is not read. -/
def execCall (s : State) : Answer := .next (advance s)

/-- Return: to the popped address plus 2; on an empty stack a diagnostic and the default advance (R121). -/
def execReturn (s : State) : Answer :=
  match pop s with
  | some (t, s') => .next (setPc (t + BitVec.ofNat 16 insnWidth) s')
  | none => .next (advance (emitDiag (.emptyReturn s.pc) s))

/-- Goto(addr) (R122). -/
def execGoto (addr : Addr12) (s : State) : Answer := .next (setPc (zext16 addr) s)

/-- CallFunction(addr) with a call stack of STACK_CAP entries: pushes its own address; STACK_OVERFLOW on a full stack (R123). -/
def callFunctionWith (p : Params) (addr : Addr12) (s : State) : Answer :=
  if depth s = p.stackCap then .next (raiseFault .stackOverflow (zext16 addr) s)
  else .next (setPc (zext16 addr) (push s.pc s))

/-- CallFunction(addr) (R123). -/
def execCallFunction (addr : Addr12) (s : State) : Answer := callFunctionWith (carriedParams s) addr s

/-- SkipEq(reg, k) (R124). -/
def execSkipEq (reg : Reg) (k : Byte) (s : State) : Answer := .next (skipIf (readReg reg s == k) s)

/-- SkipNEq(reg, k) (R125). -/
def execSkipNEq (reg : Reg) (k : Byte) (s : State) : Answer := .next (skipIf (readReg reg s != k) s)

/-- SkipEqReg(a, b) (R126). -/
def execSkipEqReg (a b : Reg) (s : State) : Answer := .next (skipIf (readReg a s == readReg b s) s)

/-- SkipNEqReg(a, b) (R127). -/
def execSkipNEqReg (a b : Reg) (s : State) : Answer := .next (skipIf (readReg a s != readReg b s) s)

/-- JumpOffset(_): to `ar + x[0]`, modulo 65536; the field `nnn` takes no part (R128). -/
def execJumpOffset (s : State) : Answer := .next (setPc (s.ar + (readReg 0 s).setWidth 16) s)

end Sys2Proof.Machine
end

