-- ==== Sys2Proof/Machine/DeviceNoops.lean ====
section
/-! DEFINITION. The device opcodes (45_device_noops.md R200 to R208): no-ops on the machine state that put the decoded opcode on the
intent port. -/

namespace Sys2Proof.Machine

/-- `emit Intent(op); pc <- pc + 2` (R208). -/
def announce (i : Instr) (s : State) : Answer := .next (advance (emitIntent i s))

/-- Clear (R200). -/
def execClear (s : State) : Answer := announce .clear s

/-- SetRand(reg, k): the register keeps its value (R201). -/
def execSetRand (reg : Reg) (k : Byte) (s : State) : Answer := announce (.setRand reg k) s

/-- Draw(a, b, k): no register, flag or memory byte is touched (R202). -/
def execDraw (a b : Reg) (k : Nibble) (s : State) : Answer := announce (.draw a b k) s

/-- SkipKeyPress(reg): it never skips (R203). -/
def execSkipKeyPress (reg : Reg) (s : State) : Answer := announce (.skipKeyPress reg) s

/-- SkipNoKeyPress(reg): it never skips (R204). -/
def execSkipNoKeyPress (reg : Reg) (s : State) : Answer := announce (.skipNoKeyPress reg) s

/-- StoreKeypress(reg): it does not wait and writes no register (R205). -/
def execStoreKeypress (reg : Reg) (s : State) : Answer := announce (.storeKeypress reg) s

/-- StoreSpriteAddress(reg): `ar` is not written (R206). -/
def execStoreSpriteAddress (reg : Reg) (s : State) : Answer := announce (.storeSpriteAddress reg) s

/-- BinaryCodedDecimal(reg): memory is not written, so there is no bounds check (R207). -/
def execBinaryCodedDecimal (reg : Reg) (s : State) : Answer := announce (.binaryCodedDecimal reg) s

end Sys2Proof.Machine
end

