-- ==== Sys2Proof/Machine/TimerOps.lean ====
section
/-! DEFINITION. The instructions that reach the timers (44_timer_ops.md R190 to R192). The decay of the timers is the cycle's. -/

namespace Sys2Proof.Machine

/-- StoreDelayTimer(reg): `dt` as it stands before this cycle's decay (R190). -/
def execStoreDelayTimer (reg : Reg) (s : State) : Answer := .next (advance (writeReg reg s.dt s))

/-- SetDelayTimer(reg) (R191). -/
def execSetDelayTimer (reg : Reg) (s : State) : Answer := .next (advance (setDt (readReg reg s) s))

/-- SetSoundTimer(reg) (R192). -/
def execSetSoundTimer (reg : Reg) (s : State) : Answer := .next (advance (setSt (readReg reg s) s))

end Sys2Proof.Machine
end

