-- ==== Sys2Proof/Machine/Dispatch.lean ====
section
/-! DEFINITION. `Execute(op)` (40_fetch_decode.md R106): one arm for each opcode, in the order of the opcode table. The halt test, the
fetch and the timer phase are the cycle's (log 13, safe). -/

namespace Sys2Proof.Machine

def exec (i : Instr) (s : State) : Host.Outcome State Fault Refusal :=
  match i with
  | .clear => Sys2Proof.Machine.execClear s
  | .ret => Sys2Proof.Machine.execReturn s
  | .call _ => Sys2Proof.Machine.execCall s
  | .goto addr => Sys2Proof.Machine.execGoto addr s
  | .callFunction addr => Sys2Proof.Machine.execCallFunction addr s
  | .skipEq reg k => Sys2Proof.Machine.execSkipEq reg k s
  | .skipNEq reg k => Sys2Proof.Machine.execSkipNEq reg k s
  | .skipEqReg a b => Sys2Proof.Machine.execSkipEqReg a b s
  | .set reg k => Sys2Proof.Machine.execSet reg k s
  | .addAssign reg k => Sys2Proof.Machine.execAddAssign reg k s
  | .copy dst src => Sys2Proof.Machine.execCopy dst src s
  | .or a b => Sys2Proof.Machine.execOr a b s
  | .and a b => Sys2Proof.Machine.execAnd a b s
  | .xor a b => Sys2Proof.Machine.execXor a b s
  | .addAssignReg a b => Sys2Proof.Machine.execAddAssignReg a b s
  | .subAssignReg a b => Sys2Proof.Machine.execSubAssignReg a b s
  | .shiftRight a b => Sys2Proof.Machine.execShiftRight a b s
  | .subtract a b => Sys2Proof.Machine.execSubtract a b s
  | .shiftLeft a b => Sys2Proof.Machine.execShiftLeft a b s
  | .skipNEqReg a b => Sys2Proof.Machine.execSkipNEqReg a b s
  | .setAddressReg addr => Sys2Proof.Machine.execSetAddressReg addr s
  | .jumpOffset _ => Sys2Proof.Machine.execJumpOffset s
  | .setRand reg k => Sys2Proof.Machine.execSetRand reg k s
  | .draw a b k => Sys2Proof.Machine.execDraw a b k s
  | .skipKeyPress reg => Sys2Proof.Machine.execSkipKeyPress reg s
  | .skipNoKeyPress reg => Sys2Proof.Machine.execSkipNoKeyPress reg s
  | .storeDelayTimer reg => Sys2Proof.Machine.execStoreDelayTimer reg s
  | .storeKeypress reg => Sys2Proof.Machine.execStoreKeypress reg s
  | .setDelayTimer reg => Sys2Proof.Machine.execSetDelayTimer reg s
  | .setSoundTimer reg => Sys2Proof.Machine.execSetSoundTimer reg s
  | .incrementAddressReg reg => Sys2Proof.Machine.execIncrementAddressReg reg s
  | .storeSpriteAddress reg => Sys2Proof.Machine.execStoreSpriteAddress reg s
  | .binaryCodedDecimal reg => Sys2Proof.Machine.execBinaryCodedDecimal reg s
  | .dump reg => Sys2Proof.Machine.execDump reg s
  | .load reg => Sys2Proof.Machine.execLoad reg s

end Sys2Proof.Machine
end

