-- ==== Sys2Proof/Machine/TimerUnit.lean ====
section
/-! DEFINITION. The timer countdown unit (60_exceptions.md R232 to R243): the decay step, and how its decrement arises. -/

namespace Sys2Proof.Machine

/-- `t - min(t, dec)` (R240). -/
def decay (dec : Nat) (t : Byte) : Byte := BitVec.ofNat 8 (t.toNat - min t.toNat dec)

/-- `TimerDecay(dec)`: both timers by the same amount, clamped at 0 (R240, R235). -/
def timerDecay (dec : Nat) (s : State) : State := setSt (decay dec s.st) (setDt (decay dec s.dt) s)

/-- What the time source says in this cycle: an injected reading while there is one, else a free value (R240; log 4, safe). -/
def timeReading (c : Clock) : Nat :=
  match c.injected with
  | now :: _ => now
  | [] => Config.timeReading c.reads

/-- The time source after one reading. -/
def clockAfterReading (c : Clock) : Clock :=
  match c.injected with
  | _ :: later => { c with injected := later }
  | [] => { c with reads := c.reads + 1 }

/-- The pending-tick counter after `n` more pulses: 8 bits, saturating at 255 (R241). -/
def addTicks (pending : Byte) (n : Nat) : Byte := BitVec.ofNat 8 (min 255 (pending.toNat + n))

/-- `(now - last) mod TICK_RATE` in whole seconds, never negative (R242, R8; log 5). -/
def coarseDecrement (tickRate now last : Nat) : Nat := (((now : Int) - (last : Int)) % (tickRate : Int)).toNat

/-- How `dec` arises from the timer unit's hidden state and the time source: the ticks pending and those that the cycle's reading
brings (R241), or the coarse rule (R242) when LEGACY_COARSE_TIMER holds. -/
def decrementWith (p : Params) (c : Clock) : Nat :=
  if p.legacy.coarseTimer then coarseDecrement p.tickRate (timeReading c) c.lastSample
  else (addTicks c.pendingTicks (timeReading c)).toNat

/-- The cycle's `dec`. -/
def decrement (s : State) : Nat := decrementWith (carriedParams s) s.clock

/-- The timer unit's hidden state after the decay: the counter cleared (R241), or the reference moved to now (R242; log 17). -/
def clockAfterDecay (s : State) : Clock :=
  if s.legacy.coarseTimer then { clockAfterReading s.clock with lastSample := timeReading s.clock }
  else { clockAfterReading s.clock with pendingTicks := 0 }

/-- The timer phase of a cycle (R109, R233): sample the time source, decay, and reset the sample. -/
def timerDriver (s : State) : State := setClock (clockAfterDecay s) (timerDecay (decrement s) s)

end Sys2Proof.Machine
end

