-- ==== Sys2Proof/Machine/Cycle.lean ====
section
/-! DEFINITION. The cycle (40_fetch_decode.md R100 to R110), for any decoder (30_encoding.md R82; log 3): its shape, said once over
how an instruction executes, how big memory is and what the timer phase does; and `cycle`, the shape at what the state carries.
Sys2Proof/Machine/Relation.lean gives the shape at arguments (10_state.md R38). -/

namespace Sys2Proof.Machine

/-- A data word `w`: a diagnostic and the default advance, no other change (R105). -/
def execDataWord (w : Word) (s : State) : State := advance (emitDiag (.dataWord s.pc w) s)

/-- The execute phase, or the data-word path, on what the decoder answered; `w` is the word fetched (R105, R106). -/
def decodedBy (execute : Instr → State → Answer) (d : Decoded) (w : Word) (s : State) : Answer :=
  match d with
  | .op i => execute i s
  | .data _ _ => .next (execDataWord w s)

/-- The execute phase with `exec`. -/
def execDecoded (d : Decoded) (w : Word) (s : State) : Answer := decodedBy exec d w s

/-- The timer phase runs once on every cycle that has not faulted (R109, R224). -/
def endCycle (timers : State → State) (answer : Answer) : Answer :=
  match answer with
  | .next s => .next (if halted s then s else timers s)
  | .fault r => .fault r
  | .refused r => .refused r

/-- The fetch check of R102, `pc > MEM_SIZE - 2` in unbounded integers. -/
def fetchOutside (size : Nat) (s : State) : Bool := decide (s.pc.toNat + 2 > size)

/-- The state in which the decoded instruction executes: only the ports differ, and hold the trace of R236. -/
def fetched (d : Decoded) (s : State) : State := emitTrace d (clearPorts s)

/-- `Cycle` (R100), in the priority of 60_exceptions.md R228: the halt test, the fetch check, decode, the instruction, the
timers. A halted engine has no step and keeps its state (R101; DEDUCED, log 8, safe). -/
def cycleBy (execute : Instr → State → Answer) (size : Nat) (timers : State → State) (decoder : Byte → Byte → Decoded)
    (s : State) : Answer :=
  if halted s then .next s
  else if fetchOutside size s then .next (raiseFault .fetchRange s.pc (clearPorts s))
  else
    let d := decoder (fetchByte0 s) (fetchByte1 s)
    endCycle timers (decodedBy execute d (wordOfBytes (fetchByte0 s) (fetchByte1 s)) (fetched d s))

/-- A cycle with this hardware's sizes, and with the LEGACY_* parameters and the time source that the state carries (log 2, log 4). -/
def cycle (decoder : Byte → Byte → Decoded) (s : State) : Answer := cycleBy exec memSize timerDriver decoder s

/-- An instruction word of `nbits` bits stored at `pc`, high byte first (R71; log 10). Beyond the last instruction slot of
memory there is nowhere to store it. -/
def storeFetchWord (s : State) (nbits w : Nat) : State :=
  let word : Word := BitVec.ofNat 16 (w % 2 ^ nbits)
  if fetchOutside memSize s then s
  else writeByte (s.pc.toNat + 1) (lowByte word) (writeByte s.pc.toNat (highByte word) s)

end Sys2Proof.Machine
end

