-- ==== Sys2Proof/Machine/Step.lean ====
section
/-! DEFINITION. One step: a cycle with the decoder of 30_encoding.md R75 (40_fetch_decode.md R111). -/

namespace Sys2Proof.Machine

/-- The host's `step`: one cycle, or nothing if halted (60_exceptions.md R244). -/
def step (s : State) : Host.Outcome State Fault Refusal := cycle decode s

/-- `s` with an instruction where `step` fetches its next one. -/
def State.withFetchWord (s : State) (nbits w : Nat) : State := storeFetchWord s nbits w

end Sys2Proof.Machine
end

