-- ==== Sys2Proof/Machine/HostInterface.lean ====
section
/-! DEFINITION. What the host and the platform can do to the block beside `step` (60_exceptions.md R244): construct and reset with an
image (70_reset_and_hazards.md R250 to R253), `run(N)` (40_fetch_decode.md R111) and TICK (60_exceptions.md R241). -/

namespace Sys2Proof.Machine

/-- Bytes written from address `a` on. -/
def loadBytes (a : Nat) : List Byte → Memory → Memory
  | [], m => m
  | b :: rest, m => loadBytes (a + 1) rest (Memory.write m a b)

/-- The program load (R252): zeroed memory, then at most LOAD_LIMIT - LOAD_BASE bytes at LOAD_BASE; the rest is dropped (R253). -/
def loadImage (p : Params) (img : List Byte) : Memory := loadBytes p.loadBase (img.take (p.loadLimit - p.loadBase)) []

/-- Construction with the parameters and the image as arguments (10_state.md R38; R250, R251). -/
def constructWith (p : Params) (img : List Byte) : State :=
  setLegacy p.legacy (setPc (BitVec.ofNat 16 p.loadBase) (setMem (loadImage p img) State.reset))

/-- `new(program_bytes)` (R250, R251). -/
def construct (img : List Byte) : State := constructWith hardwareParams img

/-- The reset input of a running machine (R250), the one way out of a halt (R226): construction anew, with the clock's reading at
the reset as the timer reference. The parameters and the time source are not the machine's state (DESIGN CHOICE, log 14, safe). -/
def hostReset (img : List Byte) (now : Nat) (s : State) : State :=
  { construct img with
    clock := { Clock.reset with lastSample := now, injected := s.clock.injected, reads := s.clock.reads }
    legacy := s.legacy }

/-- One pulse of TICK between two cycles: the counter counts it (R241; log 6). -/
def tick (s : State) : State := setClock { s.clock with pendingTicks := addTicks s.clock.pendingTicks 1 } s

/-- `run(N)` as the host sees it: up to `N` cycles, stopping at a halt (R111), with the trace, intent and diagnostic records of
each cycle that ran, the first cycle's first (R244). -/
def runRecorded : Nat → State → List Ports × Answer
  | 0, s => ([], .next s)
  | n + 1, s =>
    if halted s then ([], .next s)
    else
      match step s with
      | .next t => (t.ports :: (runRecorded n t).1, (runRecorded n t).2)
      | .fault r => ([], .fault r)
      | .refused r => ([], .refused r)

/-- `step` as the host sees it: one cycle with its records, or nothing if halted (R244). -/
def hostStep (s : State) : List Ports × Answer := runRecorded 1 s

/-- The state in which `run(N)` leaves the machine (R111). -/
def runCycles (n : Nat) (s : State) : Answer := (runRecorded n s).2

end Sys2Proof.Machine
end

