-- ==== Sys2Proof/Machine/Relation.lean ====
section
/-! DEFINITION. The step relation with its arguments (10_state.md R38): the parameters of 00_scope.md R6, the decoder and the decrement
of the cycle are arguments, and nothing is read from the fields `legacy` and `clock`. `exec` and `cycle` are these at what the state
carries, because the host's `exec` and `step` take no arguments (log 2, log 4). -/

namespace Sys2Proof.Machine

/-- `Execute(op)` with the parameters as an argument (R38; 40_fetch_decode.md R106). Five instructions use a parameter. -/
def execWith (p : Params) (i : Instr) (s : State) : Answer :=
  match i with
  | .callFunction addr => callFunctionWith p addr s
  | .addAssign reg k => addAssignWith p reg k s
  | .shiftLeft a b => shiftLeftWith p a b s
  | .dump reg => dumpWith p reg s
  | .load reg => loadWith p reg s
  | .clear | .ret | .call _ | .goto _ | .skipEq _ _ | .skipNEq _ _ | .skipEqReg _ _ | .set _ _ | .copy _ _ | .or _ _ | .and _ _
  | .xor _ _ | .addAssignReg _ _ | .subAssignReg _ _ | .shiftRight _ _ | .subtract _ _ | .skipNEqReg _ _ | .setAddressReg _
  | .jumpOffset _ | .setRand _ _ | .draw _ _ _ | .skipKeyPress _ | .skipNoKeyPress _ | .storeDelayTimer _ | .storeKeypress _
  | .setDelayTimer _ | .setSoundTimer _ | .incrementAddressReg _ | .storeSpriteAddress _ | .binaryCodedDecimal _ => exec i s

/-- `Cycle(dec)` (40_fetch_decode.md R100) with the parameters, the decoder and the decrement as arguments (R38). The decrement is any
natural number (60_exceptions.md R240). -/
def cycleWith (p : Params) (decoder : Byte → Byte → Decoded) (dec : Nat) (s : State) : Answer :=
  cycleBy (execWith p) p.memSize (timerDecay dec) decoder s

end Sys2Proof.Machine
end

