-- ==== Sys2Proof/Safety.lean ====
section
/-! DEFINITION. The terms the statements use: frames, the invariant of the machine, what is fetched, and the spec's own summaries over
all instructions (where `pc` goes, which registers are written, when a fault is raised). -/

namespace Sys2Proof.Machine

/-! ### Frames -/

/-- The parts of the state, one for each field of State. -/
inductive Part where
  | regs | pc | ar | stack | dt | st | mem | fault | clock | ports | legacy
deriving DecidableEq, Repr

/-- A part reads the same in two states. Registers and memory are compared by reading each of them. -/
def Part.same (s t : State) : Part → Prop
  | .regs => ∀ r, readReg r t = readReg r s
  | .pc => t.pc = s.pc
  | .ar => t.ar = s.ar
  | .stack => t.stack = s.stack
  | .dt => t.dt = s.dt
  | .st => t.st = s.st
  | .mem => ∀ a, readByte a t = readByte a s
  | .fault => t.fault = s.fault
  | .clock => t.clock = s.clock
  | .ports => t.ports = s.ports
  | .legacy => t.legacy = s.legacy

/-- From `s` to `t` no part outside the list changes. -/
def OnlyChanges (parts : List Part) (s t : State) : Prop := ∀ p, p ∉ parts → p.same s t

/-- No register outside the list changes. -/
def OnlyRegisters (regs : List Reg) (s t : State) : Prop := ∀ r, r ∉ regs → readReg r t = readReg r s

/-! ### Words and fetches -/

/-- The decoder reads the word, stored high byte first, as the instruction (30_encoding.md R71, R75). -/
def DecodesTo (w : Word) (i : Instr) : Prop := decode (highByte w) (lowByte w) = .op i

/-- What the decoder answers on the bytes at `pc` (40_fetch_decode.md R103, R104). -/
def fetchedInstr (s : State) : Decoded := decode (fetchByte0 s) (fetchByte1 s)

/-- The execute phase of a cycle from `s` ends in `u`, before the timer phase (R100, R105, R106). -/
def ExecutePhase (decoder : Byte → Byte → Decoded) (s u : State) : Prop :=
  execDecoded (decoder (fetchByte0 s) (fetchByte1 s)) (wordOfBytes (fetchByte0 s) (fetchByte1 s))
    (fetched (decoder (fetchByte0 s) (fetchByte1 s)) s) = .next u

/-- The execute phase of a cycle with the parameters as an argument (10_state.md R38). -/
def ExecutePhaseWith (p : Params) (decoder : Byte → Byte → Decoded) (s u : State) : Prop :=
  decodedBy (execWith p) (decoder (fetchByte0 s) (fetchByte1 s)) (wordOfBytes (fetchByte0 s) (fetchByte1 s))
    (fetched (decoder (fetchByte0 s) (fetchByte1 s)) s) = .next u

/-- A device opcode's whole effect: its intent on the intent port and the default advance (45_device_noops.md R208). -/
def Announces (i : Instr) : Prop :=
  ∀ s, ∃ t, exec i s = .next t ∧ t.pc = s.pc + 2 ∧ t.ports = { s.ports with intent := some i } ∧
    OnlyChanges [.pc, .ports] s t

/-- The data words as 30_encoding.md R76 lists them, as numbers. -/
def IsDataWord (w : Nat) : Prop :=
  (w / 4096 = 0x5 ∧ w % 16 ≠ 0) ∨
  (w / 4096 = 0x8 ∧ w % 16 ∈ [8, 9, 0xA, 0xB, 0xC, 0xD, 0xF]) ∨
  (w / 4096 = 0x9 ∧ w % 16 ≠ 0) ∨
  (w / 4096 = 0xE ∧ w % 256 ∉ [0x9E, 0xA1]) ∨
  (w / 4096 = 0xF ∧ w % 256 ∉ [0x07, 0x0A, 0x15, 0x18, 0x1E, 0x29, 0x33, 0x55, 0x65])

/-! ### The invariant -/

/-- What holds of the machine at reset and is kept by every step: memory is canonical and inside its 4096 cells (10_state.md R31),
the stack holds at most 24 entries (R27), and the fault record is clear or names a cause (R32, 60_exceptions.md R224). -/
abbrev State.Inv (s : State) : Prop :=
  Memory.wf s.mem ∧ Memory.inRange memSize s.mem ∧ s.stack.length ≤ stackCap ∧
  (s.fault.valid = false → s.fault = FaultRecord.clear) ∧ (s.fault.valid = true → s.fault.cause ≠ .none)

/-! ### Summaries over all instructions -/

/-- Where an instruction leaves `pc` (40_fetch_decode.md R107): a fault leaves it (60_exceptions.md R224), four instructions set it,
four skip on a condition, and every other one advances by 2. -/
def pcAfter (s : State) : Instr → Word
  | .goto addr => zext16 addr
  | .callFunction addr => if depth s = stackCap then s.pc else zext16 addr
  | .jumpOffset _ => s.ar + (readReg 0 s).setWidth 16
  | .ret => (s.stack.getLast?.getD s.pc) + 2
  | .skipEq reg k => if readReg reg s = k then s.pc + 4 else s.pc + 2
  | .skipNEq reg k => if readReg reg s = k then s.pc + 2 else s.pc + 4
  | .skipEqReg a b => if readReg a s = readReg b s then s.pc + 4 else s.pc + 2
  | .skipNEqReg a b => if readReg a s = readReg b s then s.pc + 2 else s.pc + 4
  | .dump reg | .load reg =>
    if (if s.legacy.dumpLoad then legacyIndexOutside s.ar reg else blockOutside memSize s.ar reg) then s.pc else s.pc + 2
  | .call _ | .clear | .set _ _ | .addAssign _ _ | .copy _ _ | .or _ _ | .and _ _ | .xor _ _ | .addAssignReg _ _
  | .subAssignReg _ _ | .subtract _ _ | .shiftRight _ _ | .shiftLeft _ _ | .setAddressReg _ | .incrementAddressReg _
  | .setRand _ _ | .draw _ _ _ | .skipKeyPress _ | .skipNoKeyPress _ | .storeDelayTimer _ | .storeKeypress _
  | .setDelayTimer _ | .setSoundTimer _ | .storeSpriteAddress _ | .binaryCodedDecimal _ => s.pc + 2

/-- The registers an instruction may write (10_state.md R22). The legacy Dump writes the registers it indexes
(43_address_memory.md R174). -/
def MayWrite (s : State) (r : Reg) : Instr → Prop
  | .set reg _ | .addAssign reg _ | .storeDelayTimer reg => r = reg
  | .copy dst _ => r = dst
  | .or a _ | .and a _ | .xor a _ => r = a
  | .addAssignReg a _ | .subAssignReg a _ | .subtract a _ => r = a ∨ r = 15
  | .shiftRight a b | .shiftLeft a b => r = a ∨ r = b ∨ r = 15
  | .load reg => r ≤ reg
  | .dump reg => s.legacy.dumpLoad = true ∧ ∃ n ≤ reg.val, r.val = (s.ar.toNat + n) % 256
  | .call _ | .clear | .ret | .goto _ | .callFunction _ | .jumpOffset _ | .skipEq _ _ | .skipNEq _ _ | .skipEqReg _ _
  | .skipNEqReg _ _ | .setAddressReg _ | .incrementAddressReg _ | .setRand _ _ | .draw _ _ _ | .skipKeyPress _
  | .skipNoKeyPress _ | .storeKeypress _ | .setDelayTimer _ | .setSoundTimer _ | .storeSpriteAddress _
  | .binaryCodedDecimal _ => False

/-- A cycle from `s` meets the condition of a fault cause, and `info` is the value the cause names (60_exceptions.md R223, in the
priority of R228). -/
def FaultCase (s : State) (info : Word) : FaultCause → Prop
  | .none => False
  | .fetchRange => s.pc.toNat > 4094 ∧ info = s.pc
  | .memRange => s.pc.toNat ≤ 4094 ∧ s.legacy.dumpLoad = false ∧
      (∃ reg : Reg, (fetchedInstr s = .op (.dump reg) ∨ fetchedInstr s = .op (.load reg)) ∧ s.ar.toNat + reg.val > 4095) ∧
      info = s.ar
  | .stackOverflow => s.pc.toNat ≤ 4094 ∧
      ∃ addr, fetchedInstr s = .op (.callFunction addr) ∧ s.stack.length = 24 ∧ info = zext16 addr
  | .legacyIndexRange => s.pc.toNat ≤ 4094 ∧ s.legacy.dumpLoad = true ∧
      (∃ reg : Reg, (fetchedInstr s = .op (.dump reg) ∨ fetchedInstr s = .op (.load reg)) ∧
        ∃ n ≤ reg.val, (s.ar.toNat + n) % 256 > 15) ∧
      info = s.ar

end Sys2Proof.Machine
end

