-- ==== Sys2Proof/Certificates/Slice0/Obligations.lean ====
section
/-! DEFINITION. The statements for the provers. Each docstring names the rules of spec/ it formalises; every statement holds for every
state, reachable or not, unless a premise says otherwise. The output ports are read through the field `ports` (log 7). -/

open Sys2Proof Sys2Proof.Machine

/-! ### Encoding (30_encoding.md) -/

/-- Words written out from the opcode map, at least one of each family, and one data word (30_encoding.md section 4). -/
def Obligations.DecodesWordsOfEachFamily : Prop :=
  DecodesTo 0x00E0#16 .clear ∧ DecodesTo 0x00EE#16 .ret ∧ DecodesTo 0x00EF#16 (.call 0x0EF#12) ∧
  DecodesTo 0x2ABC#16 (.callFunction 0xABC#12) ∧ DecodesTo 0x3207#16 (.skipEq 2 0x07#8) ∧
  DecodesTo 0x5130#16 (.skipEqReg 1 3) ∧ DecodesTo 0x7320#16 (.addAssign 3 0x20#8) ∧
  DecodesTo 0x8F14#16 (.addAssignReg 15 1) ∧ DecodesTo 0x8F16#16 (.shiftRight 15 1) ∧
  DecodesTo 0x8017#16 (.subtract 0 1) ∧ DecodesTo 0x801E#16 (.shiftLeft 0 1) ∧
  DecodesTo 0xA300#16 (.setAddressReg 0x300#12) ∧ DecodesTo 0xD015#16 (.draw 0 1 0x5#4) ∧
  DecodesTo 0xE2A1#16 (.skipNoKeyPress 2) ∧ DecodesTo 0xF307#16 (.storeDelayTimer 3) ∧
  DecodesTo 0xF255#16 (.dump 2) ∧ decode 0x51#8 0x21#8 = .data 0x51#8 0x21#8

/-- The word of a well-formed instruction decodes to that instruction (30_encoding.md section 4, for all 35 rows). -/
def Obligations.DecodeOfEncodeIsTheInstruction : Prop :=
  ∀ i : Instr, i.wf = true → DecodesTo (encode i) i

/-- Two bytes that decode to an instruction are the bytes of that instruction's word, and the instruction is well-formed: each
instruction has one word (30_encoding.md section 4). -/
def Obligations.EncodeOfDecodeIsTheWord : Prop :=
  ∀ (byte0 byte1 : Byte) (i : Instr), decode byte0 byte1 = .op i → i.wf = true ∧ encode i = wordOfBytes byte0 byte1

/-- The words that decode to data are exactly those of the list in 30_encoding.md section 5, and the answer holds their bytes. -/
def Obligations.DataWordsAreTheListedWords : Prop :=
  ∀ byte0 byte1 : Byte,
    (IsDataWord (byte0.toNat * 256 + byte1.toNat) → decode byte0 byte1 = .data byte0 byte1) ∧
    (¬IsDataWord (byte0.toNat * 256 + byte1.toNat) → ∃ i, decode byte0 byte1 = .op i)

/-! ### Control transfer (41_control.md) -/

/-- R120: Call(addr) only advances `pc`. -/
def Obligations.CallOnlyAdvances : Prop :=
  (∀ addr : Addr12, addr ≠ 0x0E0#12 → addr ≠ 0x0EE#12 → DecodesTo (0x0#4 ++ addr) (.call addr)) ∧
  ∀ (addr : Addr12) (s : State), ∃ t, exec (.call addr) s = .next t ∧ t.pc = s.pc + 2 ∧ OnlyChanges [.pc] s t

/-- R121: Return goes to the popped address plus 2; on an empty stack it advances and puts a diagnostic on its port. -/
def Obligations.ReturnPopsOrAdvances : Prop :=
  DecodesTo 0x00EE#16 .ret ∧
  (∀ (s : State) (rest : List Word) (top : Word), s.stack = rest ++ [top] →
    ∃ t, exec .ret s = .next t ∧ t.stack = rest ∧ t.pc = top + 2 ∧ OnlyChanges [.pc, .stack] s t) ∧
  ∀ s : State, s.stack = [] →
    ∃ t, exec .ret s = .next t ∧ t.pc = s.pc + 2 ∧ t.ports = { s.ports with diag := some (.emptyReturn s.pc) } ∧
      OnlyChanges [.pc, .ports] s t

/-- R122: Goto(addr) sets `pc`, with no advance. -/
def Obligations.GotoSetsPc : Prop :=
  (∀ addr : Addr12, DecodesTo (0x1#4 ++ addr) (.goto addr)) ∧
  ∀ (addr : Addr12) (s : State), ∃ t, exec (.goto addr) s = .next t ∧ t.pc.toNat = addr.toNat ∧ OnlyChanges [.pc] s t

/-- R123: CallFunction(addr) pushes its own address and jumps; on a full stack it raises STACK_OVERFLOW and changes nothing else. -/
def Obligations.CallFunctionPushesOrFaults : Prop :=
  (∀ addr : Addr12, DecodesTo (0x2#4 ++ addr) (.callFunction addr)) ∧
  (∀ (addr : Addr12) (s : State), s.stack.length < 24 →
    ∃ t, exec (.callFunction addr) s = .next t ∧ t.stack = s.stack ++ [s.pc] ∧ t.pc.toNat = addr.toNat ∧
      OnlyChanges [.pc, .stack] s t) ∧
  ∀ (addr : Addr12) (s : State), s.stack.length = 24 →
    ∃ t, exec (.callFunction addr) s = .next t ∧
      t.fault = { valid := true, cause := .stackOverflow, pc := s.pc, info := addr.setWidth 16 } ∧ OnlyChanges [.fault] s t

/-- R124 to R127: the four skips add 4 to `pc` when their condition holds and 2 when it does not. -/
def Obligations.SkipsAddFourWhenTheirConditionHolds : Prop :=
  (∀ (reg : Reg) (k : Byte), DecodesTo (0x3#4 ++ bitsOfReg reg ++ k) (.skipEq reg k) ∧
    DecodesTo (0x4#4 ++ bitsOfReg reg ++ k) (.skipNEq reg k)) ∧
  (∀ a b : Reg, DecodesTo (0x5#4 ++ bitsOfReg a ++ bitsOfReg b ++ 0x0#4) (.skipEqReg a b) ∧
    DecodesTo (0x9#4 ++ bitsOfReg a ++ bitsOfReg b ++ 0x0#4) (.skipNEqReg a b)) ∧
  (∀ (reg : Reg) (k : Byte) (s : State), ∃ t, exec (.skipEq reg k) s = .next t ∧
    t.pc = (if readReg reg s = k then s.pc + 4 else s.pc + 2) ∧ OnlyChanges [.pc] s t) ∧
  (∀ (reg : Reg) (k : Byte) (s : State), ∃ t, exec (.skipNEq reg k) s = .next t ∧
    t.pc = (if readReg reg s = k then s.pc + 2 else s.pc + 4) ∧ OnlyChanges [.pc] s t) ∧
  (∀ (a b : Reg) (s : State), ∃ t, exec (.skipEqReg a b) s = .next t ∧
    t.pc = (if readReg a s = readReg b s then s.pc + 4 else s.pc + 2) ∧ OnlyChanges [.pc] s t) ∧
  ∀ (a b : Reg) (s : State), ∃ t, exec (.skipNEqReg a b) s = .next t ∧
    t.pc = (if readReg a s = readReg b s then s.pc + 2 else s.pc + 4) ∧ OnlyChanges [.pc] s t

/-- R128: JumpOffset(_) goes to `ar + x[0]` modulo 65536, whatever its operand. -/
def Obligations.JumpOffsetAddsRegisterZero : Prop :=
  (∀ ignored : Addr12, DecodesTo (0xB#4 ++ ignored) (.jumpOffset ignored)) ∧
  ∀ (ignored : Addr12) (s : State), ∃ t, exec (.jumpOffset ignored) s = .next t ∧
    t.pc.toNat = (s.ar.toNat + (readReg 0 s).toNat) % 65536 ∧ OnlyChanges [.pc] s t

/-- 41_control.md R121 and R123 together (the source's round trip, spec/90 C1): a Return after a CallFunction, whatever ran between
them, restores the stack and goes to the instruction after the CallFunction. -/
def Obligations.ReturnUndoesCallFunction : Prop :=
  ∀ (addr : Addr12) (s : State), s.stack.length < 24 →
    ∃ t, exec (.callFunction addr) s = .next t ∧
      ∀ u : State, u.stack = t.stack → ∃ v, exec .ret u = .next v ∧ v.stack = s.stack ∧ v.pc = s.pc + 2

/-! ### Register file and ALU (42_alu.md) -/

/-- 42_alu.md section 1: the flag path writes `x[15]` and nothing else. -/
def Obligations.SetFlagWritesRegister15Only : Prop :=
  ∀ (v : Byte) (s : State), readReg 15 (setFlag v s) = v ∧ OnlyRegisters [15] s (setFlag v s) ∧
    OnlyChanges [.regs] s (setFlag v s)

/-- R142, R145: Set loads a constant and Copy moves a register. -/
def Obligations.SetAndCopyWriteOneRegister : Prop :=
  (∀ (reg : Reg) (k : Byte), DecodesTo (0x6#4 ++ bitsOfReg reg ++ k) (.set reg k)) ∧
  (∀ dst src : Reg, DecodesTo (0x8#4 ++ bitsOfReg dst ++ bitsOfReg src ++ 0x0#4) (.copy dst src)) ∧
  (∀ (reg : Reg) (k : Byte) (s : State), ∃ t, exec (.set reg k) s = .next t ∧ readReg reg t = k ∧ t.pc = s.pc + 2 ∧
    OnlyRegisters [reg] s t ∧ OnlyChanges [.regs, .pc] s t) ∧
  ∀ (dst src : Reg) (s : State), ∃ t, exec (.copy dst src) s = .next t ∧ readReg dst t = readReg src s ∧ t.pc = s.pc + 2 ∧
    OnlyRegisters [dst] s t ∧ OnlyChanges [.regs, .pc] s t

/-- R143, R144: AddAssign adds a constant to the value, or with LEGACY_ADD_ASSIGN to the index, and writes no flag. -/
def Obligations.AddAssignAddsAConstantWithoutAFlag : Prop :=
  (∀ (reg : Reg) (k : Byte), DecodesTo (0x7#4 ++ bitsOfReg reg ++ k) (.addAssign reg k)) ∧
  ∀ (reg : Reg) (k : Byte) (s : State), ∃ t, exec (.addAssign reg k) s = .next t ∧
    (s.legacy.addAssign = false → (readReg reg t).toNat = ((readReg reg s).toNat + k.toNat) % 256) ∧
    (s.legacy.addAssign = true → (readReg reg t).toNat = (reg.val + k.toNat) % 256) ∧
    t.pc = s.pc + 2 ∧ OnlyRegisters [reg] s t ∧ OnlyChanges [.regs, .pc] s t

/-- R146 to R148: Or, And and Xor, bit by bit, with no flag. -/
def Obligations.BitwiseOpcodesWriteTheirFirstRegister : Prop :=
  (∀ a b : Reg, DecodesTo (0x8#4 ++ bitsOfReg a ++ bitsOfReg b ++ 0x1#4) (.or a b) ∧
    DecodesTo (0x8#4 ++ bitsOfReg a ++ bitsOfReg b ++ 0x2#4) (.and a b) ∧
    DecodesTo (0x8#4 ++ bitsOfReg a ++ bitsOfReg b ++ 0x3#4) (.xor a b)) ∧
  (∀ (a b : Reg) (s : State), ∃ t, exec (.or a b) s = .next t ∧
    (∀ n < 8, (readReg a t).getLsbD n = ((readReg a s).getLsbD n || (readReg b s).getLsbD n)) ∧
    t.pc = s.pc + 2 ∧ OnlyRegisters [a] s t ∧ OnlyChanges [.regs, .pc] s t) ∧
  (∀ (a b : Reg) (s : State), ∃ t, exec (.and a b) s = .next t ∧
    (∀ n < 8, (readReg a t).getLsbD n = ((readReg a s).getLsbD n && (readReg b s).getLsbD n)) ∧
    t.pc = s.pc + 2 ∧ OnlyRegisters [a] s t ∧ OnlyChanges [.regs, .pc] s t) ∧
  ∀ (a b : Reg) (s : State), ∃ t, exec (.xor a b) s = .next t ∧
    (∀ n < 8, (readReg a t).getLsbD n = ((readReg a s).getLsbD n ^^ (readReg b s).getLsbD n)) ∧
    t.pc = s.pc + 2 ∧ OnlyRegisters [a] s t ∧ OnlyChanges [.regs, .pc] s t

/-- R149: AddAssignReg wraps modulo 256, and `x[15]` is the carry, written last. -/
def Obligations.AddAssignRegWrapsAndFlagsTheCarry : Prop :=
  (∀ a b : Reg, DecodesTo (0x8#4 ++ bitsOfReg a ++ bitsOfReg b ++ 0x4#4) (.addAssignReg a b)) ∧
  ∀ (a b : Reg) (s : State), ∃ t, exec (.addAssignReg a b) s = .next t ∧
    (readReg 15 t).toNat = (if (readReg a s).toNat + (readReg b s).toNat > 255 then 1 else 0) ∧
    (a ≠ 15 → (readReg a t).toNat = ((readReg a s).toNat + (readReg b s).toNat) % 256) ∧
    t.pc = s.pc + 2 ∧ OnlyRegisters [a, 15] s t ∧ OnlyChanges [.regs, .pc] s t

/-- R150, R151: the two subtractions wrap modulo 256, and `x[15]` is 1 exactly when the true difference is negative. -/
def Obligations.SubtractionsWrapAndFlagTheBorrow : Prop :=
  (∀ a b : Reg, DecodesTo (0x8#4 ++ bitsOfReg a ++ bitsOfReg b ++ 0x5#4) (.subAssignReg a b) ∧
    DecodesTo (0x8#4 ++ bitsOfReg a ++ bitsOfReg b ++ 0x7#4) (.subtract a b)) ∧
  (∀ (a b : Reg) (s : State), ∃ t, exec (.subAssignReg a b) s = .next t ∧
    (readReg 15 t).toNat = (if (readReg b s).toNat > (readReg a s).toNat then 1 else 0) ∧
    (a ≠ 15 → (readReg a t).toNat = (256 + (readReg a s).toNat - (readReg b s).toNat) % 256) ∧
    t.pc = s.pc + 2 ∧ OnlyRegisters [a, 15] s t ∧ OnlyChanges [.regs, .pc] s t) ∧
  ∀ (a b : Reg) (s : State), ∃ t, exec (.subtract a b) s = .next t ∧
    (readReg 15 t).toNat = (if (readReg a s).toNat > (readReg b s).toNat then 1 else 0) ∧
    (a ≠ 15 → (readReg a t).toNat = (256 + (readReg b s).toNat - (readReg a s).toNat) % 256) ∧
    t.pc = s.pc + 2 ∧ OnlyRegisters [a, 15] s t ∧ OnlyChanges [.regs, .pc] s t

/-- R152: ShiftRight halves `x[b]` into both registers, and `x[15]` is the bit shifted out, written last. -/
def Obligations.ShiftRightHalvesIntoBothRegisters : Prop :=
  (∀ a b : Reg, DecodesTo (0x8#4 ++ bitsOfReg a ++ bitsOfReg b ++ 0x6#4) (.shiftRight a b)) ∧
  ∀ (a b : Reg) (s : State), ∃ t, exec (.shiftRight a b) s = .next t ∧
    (readReg 15 t).toNat = (readReg b s).toNat % 2 ∧
    (a ≠ 15 → (readReg a t).toNat = (readReg b s).toNat / 2) ∧
    (b ≠ 15 → (readReg b t).toNat = (readReg b s).toNat / 2) ∧
    t.pc = s.pc + 2 ∧ OnlyRegisters [a, b, 15] s t ∧ OnlyChanges [.regs, .pc] s t

/-- R153, R154: ShiftLeft doubles `x[b]` modulo 256 into both registers; `x[15]` is bit 7 as 0 or 1, or with LEGACY_SHL_MASK the
value masked with 8, written last. -/
def Obligations.ShiftLeftDoublesIntoBothRegisters : Prop :=
  (∀ a b : Reg, DecodesTo (0x8#4 ++ bitsOfReg a ++ bitsOfReg b ++ 0xE#4) (.shiftLeft a b)) ∧
  ∀ (a b : Reg) (s : State), ∃ t, exec (.shiftLeft a b) s = .next t ∧
    (s.legacy.shlMask = false → (readReg 15 t).toNat = (readReg b s).toNat / 128) ∧
    (s.legacy.shlMask = true → (readReg 15 t).toNat = 8 * ((readReg b s).toNat / 8 % 2)) ∧
    (a ≠ 15 → (readReg a t).toNat = 2 * (readReg b s).toNat % 256) ∧
    (b ≠ 15 → (readReg b t).toNat = 2 * (readReg b s).toNat % 256) ∧
    t.pc = s.pc + 2 ∧ OnlyRegisters [a, b, 15] s t ∧ OnlyChanges [.regs, .pc] s t

/-! ### Address register, Dump and Load (43_address_memory.md) -/

/-- R170, R171: SetAddressReg loads `ar`, and IncrementAddressReg adds a register to it modulo 65536, with no flag. -/
def Obligations.AddressRegisterOpcodesWriteArOnly : Prop :=
  (∀ addr : Addr12, DecodesTo (0xA#4 ++ addr) (.setAddressReg addr)) ∧
  (∀ reg : Reg, DecodesTo (0xF#4 ++ bitsOfReg reg ++ 0x1E#8) (.incrementAddressReg reg)) ∧
  (∀ (addr : Addr12) (s : State), ∃ t, exec (.setAddressReg addr) s = .next t ∧ t.ar.toNat = addr.toNat ∧ t.pc = s.pc + 2 ∧
    OnlyChanges [.ar, .pc] s t) ∧
  ∀ (reg : Reg) (s : State), ∃ t, exec (.incrementAddressReg reg) s = .next t ∧
    t.ar.toNat = (s.ar.toNat + (readReg reg s).toNat) % 65536 ∧ t.pc = s.pc + 2 ∧ OnlyChanges [.ar, .pc] s t

/-- R172: Dump stores `x[0]` to `x[reg]` at `ar` and moves `ar` past them; when a byte would fall outside memory it raises
MEM_RANGE and changes nothing else. -/
def Obligations.DumpStoresRegistersAtAr : Prop :=
  (∀ reg : Reg, DecodesTo (0xF#4 ++ bitsOfReg reg ++ 0x55#8) (.dump reg)) ∧
  (∀ (reg : Reg) (s : State), s.legacy.dumpLoad = false → s.ar.toNat + reg.val ≤ 4095 →
    ∃ t, exec (.dump reg) s = .next t ∧
      (∀ i : Reg, i ≤ reg → readByte (s.ar.toNat + i.val) t = readReg i s) ∧
      (∀ a : Nat, a < s.ar.toNat ∨ s.ar.toNat + reg.val < a → readByte a t = readByte a s) ∧
      t.ar.toNat = s.ar.toNat + reg.val + 1 ∧ t.pc = s.pc + 2 ∧ OnlyChanges [.mem, .ar, .pc] s t) ∧
  ∀ (reg : Reg) (s : State), s.legacy.dumpLoad = false → s.ar.toNat + reg.val > 4095 →
    ∃ t, exec (.dump reg) s = .next t ∧ t.fault = { valid := true, cause := .memRange, pc := s.pc, info := s.ar } ∧
      OnlyChanges [.fault] s t

/-- R173: Load reads `x[0]` to `x[reg]` at `ar` and moves `ar` past them; when a byte would fall outside memory it raises
MEM_RANGE and changes nothing else. -/
def Obligations.LoadReadsRegistersAtAr : Prop :=
  (∀ reg : Reg, DecodesTo (0xF#4 ++ bitsOfReg reg ++ 0x65#8) (.load reg)) ∧
  (∀ (reg : Reg) (s : State), s.legacy.dumpLoad = false → s.ar.toNat + reg.val ≤ 4095 →
    ∃ t, exec (.load reg) s = .next t ∧
      (∀ i : Reg, readReg i t = if i ≤ reg then readByte (s.ar.toNat + i.val) s else readReg i s) ∧
      t.ar.toNat = s.ar.toNat + reg.val + 1 ∧ t.pc = s.pc + 2 ∧ OnlyChanges [.regs, .ar, .pc] s t) ∧
  ∀ (reg : Reg) (s : State), s.legacy.dumpLoad = false → s.ar.toNat + reg.val > 4095 →
    ∃ t, exec (.load reg) s = .next t ∧ t.fault = { valid := true, cause := .memRange, pc := s.pc, info := s.ar } ∧
      OnlyChanges [.fault] s t

/-- R174: with LEGACY_DUMP_LOAD, Dump writes register `i` into register `(ar + i) mod 256`, one step after another; an index above 15
raises LEGACY_INDEX_RANGE and changes nothing else. -/
def Obligations.LegacyDumpWritesIndexedRegistersInTurn : Prop :=
  (∀ reg : Reg, DecodesTo (0xF#4 ++ bitsOfReg reg ++ 0x55#8) (.dump reg)) ∧
  (∀ (reg : Reg) (s : State), s.legacy.dumpLoad = true → (∀ i ≤ reg.val, (s.ar.toNat + i) % 256 ≤ 15) →
    ∃ t, exec (.dump reg) s = .next t ∧
      (∀ r : Reg, readReg r t = readAt ((List.range (reg.val + 1)).foldl
        (fun x i => writeAt x (regNo ((s.ar.toNat + i) % 256)) (readAt x (regNo i))) s.regs) r) ∧
      t.ar.toNat = (s.ar.toNat + reg.val + 1) % 65536 ∧ t.pc = s.pc + 2 ∧ OnlyChanges [.regs, .ar, .pc] s t) ∧
  ∀ (reg : Reg) (s : State), s.legacy.dumpLoad = true → (∃ i ≤ reg.val, (s.ar.toNat + i) % 256 > 15) →
    ∃ t, exec (.dump reg) s = .next t ∧
      t.fault = { valid := true, cause := .legacyIndexRange, pc := s.pc, info := s.ar } ∧ OnlyChanges [.fault] s t

/-- R175: with LEGACY_DUMP_LOAD, Load reads register `(ar + i) mod 256` into register `i`, one step after another; an index above 15
raises LEGACY_INDEX_RANGE and changes nothing else. -/
def Obligations.LegacyLoadReadsIndexedRegisters : Prop :=
  (∀ reg : Reg, DecodesTo (0xF#4 ++ bitsOfReg reg ++ 0x65#8) (.load reg)) ∧
  (∀ (reg : Reg) (s : State), s.legacy.dumpLoad = true → (∀ i ≤ reg.val, (s.ar.toNat + i) % 256 ≤ 15) →
    ∃ t, exec (.load reg) s = .next t ∧
      (∀ r : Reg, readReg r t = readAt ((List.range (reg.val + 1)).foldl
        (fun x i => writeAt x (regNo i) (readAt x (regNo ((s.ar.toNat + i) % 256)))) s.regs) r) ∧
      t.ar.toNat = (s.ar.toNat + reg.val + 1) % 65536 ∧ t.pc = s.pc + 2 ∧ OnlyChanges [.regs, .ar, .pc] s t) ∧
  ∀ (reg : Reg) (s : State), s.legacy.dumpLoad = true → (∃ i ≤ reg.val, (s.ar.toNat + i) % 256 > 15) →
    ∃ t, exec (.load reg) s = .next t ∧
      t.fault = { valid := true, cause := .legacyIndexRange, pc := s.pc, info := s.ar } ∧ OnlyChanges [.fault] s t

/-- 43_address_memory.md section 3, a consequence of the sequential steps of the legacy Dump: with `b = ar mod 256` the registers from
`b` on repeat the first `b` registers, and `b = 0` changes no register. -/
def Obligations.LegacyDumpRepeatsTheFirstRegisters : Prop :=
  ∀ (reg : Reg) (s : State), s.legacy.dumpLoad = true → (∀ i ≤ reg.val, (s.ar.toNat + i) % 256 ≤ 15) →
    ∃ t, exec (.dump reg) s = .next t ∧
      (s.ar.toNat % 256 = 0 → ∀ r : Reg, readReg r t = readReg r s) ∧
      (0 < s.ar.toNat % 256 →
        (∀ i ≤ reg.val, readReg (regNo (s.ar.toNat % 256 + i)) t = readReg (regNo (i % (s.ar.toNat % 256))) s) ∧
        ∀ r : Reg, r.val < s.ar.toNat % 256 ∨ s.ar.toNat % 256 + reg.val < r.val → readReg r t = readReg r s)

/-- 43_address_memory.md section 3, which marks it as derived: no step of the legacy Load reads a register that an earlier step wrote,
so the result is that of reading all the old values at once. -/
def Obligations.LegacyLoadReadsTheOldRegisters : Prop :=
  ∀ (reg : Reg) (s : State), s.legacy.dumpLoad = true → (∀ i ≤ reg.val, (s.ar.toNat + i) % 256 ≤ 15) →
    ∃ t, exec (.load reg) s = .next t ∧
      ∀ r : Reg, readReg r t = if r ≤ reg then readReg (regNo ((s.ar.toNat + r.val) % 256)) s else readReg r s

/-- 43_address_memory.md section 2: a Load at the address of a Dump gives the dumped registers back, whatever else changed between. -/
def Obligations.LoadUndoesDump : Prop :=
  ∀ (reg : Reg) (s : State), s.legacy.dumpLoad = false → s.ar.toNat + reg.val ≤ 4095 →
    ∃ t, exec (.dump reg) s = .next t ∧
      ∀ u : State, u.legacy = s.legacy → u.ar = s.ar → (∀ a, readByte a u = readByte a t) →
        ∃ v, exec (.load reg) u = .next v ∧ ∀ r : Reg, r ≤ reg → readReg r v = readReg r s

/-- 20_memory.md section 4: the cycle after a Dump fetches the bytes that the Dump wrote, and unwritten bytes as they were. -/
def Obligations.DumpedBytesAreFetchedNext : Prop :=
  ∀ (reg : Reg) (s t : State), halted s = false → s.pc.toNat ≤ 4094 → fetchedInstr s = .op (.dump reg) →
    s.legacy.dumpLoad = false → s.ar.toNat + reg.val ≤ 4095 → step s = .next t →
    t.pc = s.pc + 2 ∧
    (∀ i : Reg, i ≤ reg → s.ar.toNat + i.val = t.pc.toNat → fetchByte0 t = readReg i s) ∧
    (∀ i : Reg, i ≤ reg → s.ar.toNat + i.val = t.pc.toNat + 1 → fetchByte1 t = readReg i s) ∧
    (t.pc.toNat + 1 < s.ar.toNat ∨ s.ar.toNat + reg.val < t.pc.toNat →
      fetchByte0 t = readByte (s.pc.toNat + 2) s ∧ fetchByte1 t = readByte (s.pc.toNat + 3) s)

/-! ### Timers (44_timer_ops.md, 60_exceptions.md) -/

/-- R190 to R192: StoreDelayTimer reads `dt`; SetDelayTimer and SetSoundTimer write their timer. -/
def Obligations.TimerOpcodesMoveARegister : Prop :=
  (∀ reg : Reg, DecodesTo (0xF#4 ++ bitsOfReg reg ++ 0x07#8) (.storeDelayTimer reg) ∧
    DecodesTo (0xF#4 ++ bitsOfReg reg ++ 0x15#8) (.setDelayTimer reg) ∧
    DecodesTo (0xF#4 ++ bitsOfReg reg ++ 0x18#8) (.setSoundTimer reg)) ∧
  (∀ (reg : Reg) (s : State), ∃ t, exec (.storeDelayTimer reg) s = .next t ∧ readReg reg t = s.dt ∧ t.pc = s.pc + 2 ∧
    OnlyRegisters [reg] s t ∧ OnlyChanges [.regs, .pc] s t) ∧
  (∀ (reg : Reg) (s : State), ∃ t, exec (.setDelayTimer reg) s = .next t ∧ t.dt = readReg reg s ∧ t.pc = s.pc + 2 ∧
    OnlyChanges [.dt, .pc] s t) ∧
  ∀ (reg : Reg) (s : State), ∃ t, exec (.setSoundTimer reg) s = .next t ∧ t.st = readReg reg s ∧ t.pc = s.pc + 2 ∧
    OnlyChanges [.st, .pc] s t

/-- 60_exceptions.md section 8 and 40_fetch_decode.md section 5: the decay step takes the same amount off both timers, clamped at 0, and a decrement of 0 changes nothing; it runs
once after the execute phase, or the data-word path, of every cycle that has not faulted, for every decoder, with the decrement the
environment supplies, of which it takes one reading, and not on a cycle that faults or on a halted engine. How the time source in
the field `clock` moves is the model's choice (log 4). -/
def Obligations.TimersDecayOnceOnEveryCompletedCycle : Prop :=
  (∀ (dec : Nat) (s : State), (timerDecay dec s).dt.toNat = s.dt.toNat - dec ∧ (timerDecay dec s).st.toNat = s.st.toNat - dec ∧
    OnlyChanges [.dt, .st] s (timerDecay dec s)) ∧
  (∀ s : State, timerDecay 0 s = s) ∧
  (∀ (decoder : Byte → Byte → Decoded) (s t : State), cycle decoder s = .next t → halted t = false →
    ∃ u, ExecutePhase decoder s u ∧ t.dt.toNat = u.dt.toNat - decrement u ∧ t.st.toNat = u.st.toNat - decrement u ∧
      t.clock = clockAfterDecay u ∧ OnlyChanges [.dt, .st, .clock] u t) ∧
  ∀ (decoder : Byte → Byte → Decoded) (s t : State), cycle decoder s = .next t → halted t = true →
    t.dt = s.dt ∧ t.st = s.st ∧ t.clock = s.clock

/-- 60_exceptions.md section 8, the fine mode: the decrement is the number of pulses counted, saturating at 255; the decay clears the
counter; a pulse between cycles adds one and changes nothing else. How the pulses of a cycle arrive is the model's choice (log 4, log 6), and that the fine mode leaves
the coarse reference alone is read from the spec by inference (log 17). -/
def Obligations.FineDecrementIsTheCountedTicks : Prop :=
  (∀ s : State, s.legacy.coarseTimer = false →
    decrement s = min 255 (s.clock.pendingTicks.toNat + timeReading s.clock) ∧ (timerDriver s).clock.pendingTicks = 0 ∧
    (timerDriver s).clock.lastSample = s.clock.lastSample) ∧
  (∀ s : State, (tick s).clock.pendingTicks.toNat = min 255 (s.clock.pendingTicks.toNat + 1) ∧
    (tick s).clock = { s.clock with pendingTicks := (tick s).clock.pendingTicks } ∧ OnlyChanges [.clock] s (tick s)) ∧
  ∀ s : State, s.legacy.coarseTimer = false → 255 ≤ s.clock.pendingTicks.toNat →
    (timerDriver s).dt = 0 ∧ (timerDriver s).st = 0

/-- 60_exceptions.md section 8, the coarse mode: the decrement is the elapsed whole seconds modulo 60, so it is 0 within a second and
1 after 61 seconds, and the reference moves to now. The clock's readings are free (log 4, log 5, log 17). -/
def Obligations.CoarseDecrementIsTheElapsedSecondsModulo60 : Prop :=
  ∀ s : State, s.legacy.coarseTimer = true →
    (∀ elapsed : Nat, timeReading s.clock = s.clock.lastSample + elapsed → decrement s = elapsed % 60) ∧
    decrement s < 60 ∧ (timerDriver s).clock.lastSample = timeReading s.clock ∧
    (timerDriver s).clock.pendingTicks = s.clock.pendingTicks

/-- 60_exceptions.md section 6: no step raises a timer unless it executes the instruction that sets that timer. -/
def Obligations.TimersRiseOnlyWhenSet : Prop :=
  ∀ s t : State, step s = .next t →
    ((∀ reg, fetchedInstr s ≠ .op (.setDelayTimer reg)) → t.dt.toNat ≤ s.dt.toNat) ∧
    ((∀ reg, fetchedInstr s ≠ .op (.setSoundTimer reg)) → t.st.toNat ≤ s.st.toNat)

/-- 70_reset_and_hazards.md section 3: SetDelayTimer followed at once by StoreDelayTimer reads the value less the first cycle's decrement. -/
def Obligations.SetThenStoreDelayTimerSeesOneDecay : Prop :=
  ∀ (r q : Reg) (s t u : State), halted s = false → s.pc.toNat ≤ 4092 → fetchedInstr s = .op (.setDelayTimer r) →
    step s = .next t → fetchedInstr t = .op (.storeDelayTimer q) → step t = .next u →
    (readReg q u).toNat = (readReg r s).toNat - decrement s

/-! ### Device opcodes (45_device_noops.md) -/

/-- R200 to R207: each device opcode puts itself on the intent port (field `ports`) and advances `pc`; nothing else changes. -/
def Obligations.DeviceOpcodesOnlyAnnounce : Prop :=
  (DecodesTo 0x00E0#16 .clear ∧ Announces .clear) ∧
  (∀ (reg : Reg) (k : Byte), DecodesTo (0xC#4 ++ bitsOfReg reg ++ k) (.setRand reg k) ∧ Announces (.setRand reg k)) ∧
  (∀ (a b : Reg) (k : Nibble), DecodesTo (0xD#4 ++ bitsOfReg a ++ bitsOfReg b ++ k) (.draw a b k) ∧ Announces (.draw a b k)) ∧
  (∀ reg : Reg, DecodesTo (0xE#4 ++ bitsOfReg reg ++ 0x9E#8) (.skipKeyPress reg) ∧ Announces (.skipKeyPress reg)) ∧
  (∀ reg : Reg, DecodesTo (0xE#4 ++ bitsOfReg reg ++ 0xA1#8) (.skipNoKeyPress reg) ∧ Announces (.skipNoKeyPress reg)) ∧
  (∀ reg : Reg, DecodesTo (0xF#4 ++ bitsOfReg reg ++ 0x0A#8) (.storeKeypress reg) ∧ Announces (.storeKeypress reg)) ∧
  (∀ reg : Reg, DecodesTo (0xF#4 ++ bitsOfReg reg ++ 0x29#8) (.storeSpriteAddress reg) ∧ Announces (.storeSpriteAddress reg)) ∧
  ∀ reg : Reg, DecodesTo (0xF#4 ++ bitsOfReg reg ++ 0x33#8) (.binaryCodedDecimal reg) ∧ Announces (.binaryCodedDecimal reg)

/-! ### The cycle, faults and halt (40_fetch_decode.md, 60_exceptions.md) -/

/-- A step runs the decoded instruction (40_fetch_decode.md section 1): on an engine that is not halted and whose `pc` is a slot of memory,
the instruction executes on the state whose only difference is the trace record on the port (and the other ports clear), and if it
did not fault the timer phase follows. That the ports stand in the state is the model's choice (log 7). -/
def Obligations.StepRunsTheDecodedInstruction : Prop :=
  ∀ (s : State) (i : Instr), halted s = false → s.pc.toNat ≤ 4094 → fetchedInstr s = .op i →
    ∀ u, exec i (setPorts { trace := some { pc := s.pc, dt := s.dt, st := s.st, decoded := .op i }, intent := none, diag := none } s)
        = .next u →
      step s = .next (if halted u then u else timerDriver u)

/-- R105: a data word advances `pc` by 2, puts a diagnostic on its port, and changes nothing else in the execute phase; the timer decay
of the cycle still runs. -/
def Obligations.DataWordOnlyAdvances : Prop :=
  ∀ (s : State) (byte0 byte1 : Byte), halted s = false → s.pc.toNat ≤ 4094 → fetchedInstr s = .data byte0 byte1 →
    ∃ t, step s = .next t ∧ t.pc = s.pc + 2 ∧ t.ports.diag = some (.dataWord s.pc (wordOfBytes (fetchByte0 s) (fetchByte1 s))) ∧
      t.ports.intent = none ∧ t.dt.toNat = s.dt.toNat - decrement s ∧ t.st.toNat = s.st.toNat - decrement s ∧
      OnlyChanges [.pc, .ports, .dt, .st, .clock] s t

/-- R102: a fetch with `pc` above 4094 raises FETCH_RANGE before any read, for every decoder, and changes nothing but the record and
the ports (log 7); with `pc` at most 4094 no cycle raises it. -/
def Obligations.FetchBeyondMemoryFaults : Prop :=
  (∀ (decoder : Byte → Byte → Decoded) (s : State), halted s = false → s.pc.toNat > 4094 →
    ∃ t, cycle decoder s = .next t ∧ t.fault = { valid := true, cause := .fetchRange, pc := s.pc, info := s.pc } ∧
      OnlyChanges [.fault, .ports] s t) ∧
  ∀ (decoder : Byte → Byte → Decoded) (s t : State), halted s = false → s.pc.toNat ≤ 4094 → cycle decoder s = .next t →
    halted t = true → t.fault.cause ≠ .fetchRange

/-- A halted engine has no step and stays as it is until a reset, which clears the record (40_fetch_decode.md section 1,
60_exceptions.md section 3); that step answers the same state is the model's reading (log 8). -/
def Obligations.HaltedEngineStaysUntilReset : Prop :=
  ∀ s : State, halted s = true →
    (∀ decoder : Byte → Byte → Decoded, cycle decoder s = .next s) ∧
    (∀ n : Nat, Host.Core.run Sys2Proof.core n s = .next s ∧ runCycles n s = .next s) ∧
    ∀ (img : List Byte) (now : Nat), (hostReset img now s).fault = FaultRecord.clear ∧ halted (hostReset img now s) = false

/-- R224: fault entry writes the record and changes nothing else, and every fault is raised before the first write of its cycle, so a
cycle that faults leaves every part but the record and the ports as it was, for every decoder. -/
def Obligations.FaultsArePrecise : Prop :=
  (∀ (cause : FaultCause) (info : Word) (s : State),
    (raiseFault cause info s).fault = { valid := true, cause := cause, pc := s.pc, info := info } ∧
    OnlyChanges [.fault] s (raiseFault cause info s)) ∧
  ∀ (decoder : Byte → Byte → Decoded) (s t : State), halted s = false → cycle decoder s = .next t → halted t = true →
    ∃ cause info, cause ≠ .none ∧ t.fault = { valid := true, cause := cause, pc := s.pc, info := info } ∧
      OnlyChanges [.fault, .ports] s t

/-- R223: the reset values, the codes, and the condition and info of each cause. A step faults exactly when one of the conditions holds, and then with
that cause and that info. -/
def Obligations.FaultsExactlyOnTheirConditions : Prop :=
  (Sys2Proof.Machine.State.reset.fault.cause = .none ∧ Sys2Proof.Machine.State.reset.fault.info = 0) ∧
  (FaultCause.code .none = 0 ∧ FaultCause.code .fetchRange = 1 ∧ FaultCause.code .memRange = 2 ∧
    FaultCause.code .stackOverflow = 3 ∧ FaultCause.code .legacyIndexRange = 4) ∧
  ∀ s t : State, halted s = false → step s = .next t →
    (halted t = true → ∃ cause info, FaultCase s info cause) ∧
    ∀ cause info, FaultCase s info cause → t.fault = { valid := true, cause := cause, pc := s.pc, info := info }

/-- 40_fetch_decode.md section 4: no instruction aborts. Every instruction on every state answers a next state, and it either leaves the
fault record alone or is a reported fault that changes the record only; so every cycle answers a next state, for every decoder. That
a reported fault is a next state is the model's reading (log 9). -/
def Obligations.EveryInstructionCompletesOrReportsAFault : Prop :=
  (∀ (i : Instr) (s : State), ∃ t, exec i s = .next t ∧
    (t.fault = s.fault ∨ (t.fault.valid = true ∧ t.fault.pc = s.pc ∧ OnlyChanges [.fault] s t))) ∧
  ∀ (decoder : Byte → Byte → Decoded) (s : State), ∃ t, cycle decoder s = .next t

/-- R107: where every instruction leaves `pc`. -/
def Obligations.PcMovesAsTheAdvanceRuleSays : Prop :=
  ∀ (i : Instr) (s t : State), exec i s = .next t → t.pc = pcAfter s i

/-! ### Whole-machine rules -/

/-- Every step keeps the invariant: memory stays canonical and inside its 4096 cells, the stack holds at most 24 entries, and the
fault record is clear or names a cause (10_state.md sections 4, 6 and 7). A TICK pulse keeps it too. -/
def Obligations.StepKeepsTheInvariant : Prop :=
  (∀ s t : State, s.Inv → Sys2Proof.Machine.step s = .next t → t.Inv) ∧ ∀ s : State, s.Inv → (tick s).Inv

/-- The invariant holds at reset. -/
def Obligations.ResetMeetsTheInvariant : Prop := Sys2Proof.Machine.State.reset.Inv

/-- The invariant holds after construction with any image (70_reset_and_hazards.md section 1). -/
def Obligations.ConstructionMeetsTheInvariant : Prop := ∀ img : List Byte, (construct img).Inv

/-- The values that 10_state.md section 8 gives every piece of state at reset. The origin of the timer reference is the model's choice
(log 5) and is not stated; that the parameters stand in the state is the model's choice too (log 2). -/
def Obligations.ResetLeavesTheListedValues : Prop :=
  let s := Sys2Proof.Machine.State.reset
  (∀ r, readReg r s = 0) ∧ s.pc = 0x200 ∧ s.ar = 0 ∧ s.stack = [] ∧ s.dt = 0 ∧ s.st = 0 ∧ (∀ a, readByte a s = 0) ∧
  s.fault = { valid := false, cause := .none, pc := 0, info := 0 } ∧ s.clock.pendingTicks = 0 ∧
  s.legacy = { addAssign := false, shlMask := false, dumpLoad := false, coarseTimer := false }

/-- R252, R253: construction copies at most 0xCA0 bytes of the image to 0x200, drops the rest silently, and leaves every other byte 0. -/
def Obligations.ImageLandsAt0x200Truncated : Prop :=
  ∀ (img : List Byte) (a : Nat),
    (∀ i, i < img.length → i < 0xCA0 → a = 0x200 + i → readByte a (construct img) = img.getD i 0) ∧
    ((a < 0x200 ∨ 0xEA0 ≤ a ∨ 0x200 + img.length ≤ a) → readByte a (construct img) = 0) ∧
    (construct img).fault = FaultRecord.clear ∧ (construct img).ports = Ports.silent ∧
    OnlyChanges [.mem] Sys2Proof.Machine.State.reset (construct img)

/-- 20_memory.md section 1: the only step that changes a byte is a Dump with LEGACY_DUMP_LOAD false, at `ar` to `ar + reg`. -/
def Obligations.OnlyDumpWritesMemory : Prop :=
  ∀ (s t : State) (a : Nat), step s = .next t → readByte a t ≠ readByte a s →
    s.legacy.dumpLoad = false ∧
    ∃ reg : Reg, fetchedInstr s = .op (.dump reg) ∧ s.ar.toNat ≤ a ∧ a ≤ s.ar.toNat + reg.val ∧ s.ar.toNat + reg.val ≤ 4095

/-- 10_state.md section 4: only CallFunction pushes and only Return pops, by one entry. -/
def Obligations.OnlyCallFunctionPushesAndReturnPops : Prop :=
  ∀ s t : State, step s = .next t →
    t.stack = s.stack ∨
    (∃ addr, fetchedInstr s = .op (.callFunction addr) ∧ t.stack = s.stack ++ [s.pc]) ∨
    (fetchedInstr s = .op .ret ∧ ∃ top, s.stack = t.stack ++ [top])

/-- 10_state.md section 1: an instruction writes no register but those its row of the table names, nor `ar` unless it is one of the
four opcodes that write it. -/
def Obligations.RegistersWrittenAreThoseOfTheTable : Prop :=
  ∀ (i : Instr) (s t : State), exec i s = .next t →
    (∀ r : Reg, ¬MayWrite s r i → readReg r t = readReg r s) ∧
    (t.ar ≠ s.ar → (∃ addr, i = .setAddressReg addr) ∨ (∃ reg, i = .incrementAddressReg reg) ∨ (∃ reg, i = .dump reg) ∨
      ∃ reg, i = .load reg)

/-- 10_state.md section 8: a step changes no parameter, and the timer unit's hidden state only through the timer phase, which a step
runs at most once. That both stand in the state is the model's choice (log 2, log 4). -/
def Obligations.StepKeepsTheParameters : Prop :=
  ∀ s t : State, step s = .next t → t.legacy = s.legacy ∧ (t.clock = s.clock ∨ t.clock = clockAfterDecay s)

/-- 60_exceptions.md section 7: a cycle that completes its fetch puts one trace record on the port, with the values before execute,
and a cycle that faults in its fetch puts no record on any port. Where the records stand, and that a cycle clears them as it begins,
is the model's choice (log 7). -/
def Obligations.TraceRecordsTheStateBeforeExecute : Prop :=
  (∀ (decoder : Byte → Byte → Decoded) (s t : State), halted s = false → s.pc.toNat ≤ 4094 → cycle decoder s = .next t →
    t.ports.trace =
      some { pc := s.pc, dt := s.dt, st := s.st, decoded := decoder (fetchByte0 s) (fetchByte1 s) }) ∧
  ∀ (decoder : Byte → Byte → Decoded) (s t : State), halted s = false → s.pc.toNat > 4094 → cycle decoder s = .next t →
    t.ports = Ports.silent

/-- 10_state.md section 8 and 60_exceptions.md section 7: what is on the ports reaches nothing. No instruction does anything else on
a state that differs in its ports alone, and on an engine that is not halted a cycle gives the same answer. That the ports stand in the state, and that a cycle clears them as it
begins, is the model's choice (log 7). -/
def Obligations.PortsAreNeverRead : Prop :=
  (∀ (i : Instr) (s t u : State) (p : Ports), exec i s = .next t → exec i (setPorts p s) = .next u → OnlyChanges [.ports] t u) ∧
  ∀ (decoder : Byte → Byte → Decoded) (s : State) (p : Ports), halted s = false →
    cycle decoder (setPorts p s) = cycle decoder s

/-- 60_exceptions.md sections 6 and 8, 70_reset_and_hazards.md section 4: the time source reaches nothing but the timers. Two states that differ
in the clock alone step to states that agree on everything but the timers and the clock. That the time source stands in the state
is the model's choice (log 4). -/
def Obligations.TimeSourceReachesTheTimersOnly : Prop :=
  ∀ (decoder : Byte → Byte → Decoded) (s t u : State) (c : Clock), cycle decoder s = .next t → cycle decoder (setClock c s) = .next u →
    OnlyChanges [.dt, .st, .clock] t u

/-- 40_fetch_decode.md section 5: `run(N)`, which stops at a halt, is N steps, since a halted engine stays as it is (log 8). -/
def Obligations.RunStopsWhereSteppingStays : Prop :=
  ∀ (n : Nat) (s : State), runCycles n s = Host.Core.run Sys2Proof.core n s

/-- 70_reset_and_hazards.md section 1: from reset with the empty image `pc` goes from 0x200 to 0x1000 in 1792 steps with no halt, and the
next step faults with FETCH_RANGE at 0x1000. That no step comes before the first instruction is read from the spec by inference (log 10). -/
def Obligations.EmptyImageRunsOffTheEnd : Prop :=
  (∀ n ≤ 1792, ∃ t, Host.Core.run Sys2Proof.core n Sys2Proof.Machine.State.reset = .next t ∧ t.pc.toNat = 0x200 + 2 * n ∧ halted t = false) ∧
  ∃ t, Host.Core.run Sys2Proof.core 1793 Sys2Proof.Machine.State.reset = .next t ∧
    t.fault = { valid := true, cause := .fetchRange, pc := 0x1000, info := 0x1000 }

/-- 70_reset_and_hazards.md section 1, which marks it as derived: on an engine that is not halted, with two zero bytes at a `pc` inside
memory, a step only advances `pc`; the ports, the timers and the clock are the cycle's. -/
def Obligations.ZeroWordOnlyAdvances : Prop :=
  ∀ s : State, halted s = false → s.pc.toNat ≤ 4094 → fetchByte0 s = 0 → fetchByte1 s = 0 →
    ∃ t, step s = .next t ∧ t.pc = s.pc + 2 ∧ OnlyChanges [.pc, .ports, .dt, .st, .clock] s t

/-! ### The step relation with its arguments (10_state.md R38) -/

/-- R240 and R109: with any natural number as the decrement supplied for the cycle, a cycle that has not faulted is its execute phase,
or its data-word path, and then `max(0, t - dec)` on both timers, once, and nothing else; a cycle that faults and a halted engine
leave the timers alone. It holds for every decoder and every parameter. -/
def Obligations.DecaySubtractsTheSuppliedDecrement : Prop :=
  ∀ (p : Params) (decoder : Byte → Byte → Decoded) (dec : Nat) (s t : State), cycleWith p decoder dec s = .next t →
    (halted t = false →
      ∃ u, ExecutePhaseWith p decoder s u ∧ t.dt.toNat = u.dt.toNat - dec ∧ t.st.toNat = u.st.toNat - dec ∧
        OnlyChanges [.dt, .st] u t) ∧
    (halted t = true → t.dt = s.dt ∧ t.st = s.st)

/-- 10_state.md section 8: the step relation takes the parameters, the decoder and the decrement as arguments and reads none of them
from the state; a cycle of the model is that relation at the parameters and the decrement its state carries, after which the time
source has moved on if the cycle did not fault. That the state carries them is the model's choice (log 2, log 4). -/
def Obligations.CycleIsTheRelationAtItsCarriedArguments : Prop :=
  (∀ (decoder : Byte → Byte → Decoded) (s t : State),
    cycle decoder s = .next t ↔
      ∃ u, cycleWith (carriedParams s) decoder (decrement s) s = .next u ∧
        t = if halted u then u else setClock (clockAfterDecay s) u) ∧
  ∀ (p : Params) (decoder : Byte → Byte → Decoded) (dec : Nat) (s t : State) (legacy : Legacy) (clock : Clock),
    cycleWith p decoder dec s = .next t →
      cycleWith p decoder dec (setLegacy legacy (setClock clock s)) = .next (setLegacy legacy (setClock clock t))
end

