-- ==== Sys2Proof/Laws/State.lean ====
section
/-! SUPPORT. One lemma for each field of State under each update of Sys2Proof/Machine/Ops.lean, so that no later proof unfolds a
record update. Every other operation is rewritten to these updates in Sys2Proof/Laws/Ops.lean. -/

namespace Sys2Proof.Machine

@[simp] theorem setRegs_regs (v : RegFile) (s : State) : (setRegs v s).regs = v := rfl
@[simp] theorem setRegs_pc (v : RegFile) (s : State) : (setRegs v s).pc = s.pc := rfl
@[simp] theorem setRegs_ar (v : RegFile) (s : State) : (setRegs v s).ar = s.ar := rfl
@[simp] theorem setRegs_stack (v : RegFile) (s : State) : (setRegs v s).stack = s.stack := rfl
@[simp] theorem setRegs_dt (v : RegFile) (s : State) : (setRegs v s).dt = s.dt := rfl
@[simp] theorem setRegs_st (v : RegFile) (s : State) : (setRegs v s).st = s.st := rfl
@[simp] theorem setRegs_mem (v : RegFile) (s : State) : (setRegs v s).mem = s.mem := rfl
@[simp] theorem setRegs_fault (v : RegFile) (s : State) : (setRegs v s).fault = s.fault := rfl
@[simp] theorem setRegs_clock (v : RegFile) (s : State) : (setRegs v s).clock = s.clock := rfl
@[simp] theorem setRegs_ports (v : RegFile) (s : State) : (setRegs v s).ports = s.ports := rfl
@[simp] theorem setRegs_legacy (v : RegFile) (s : State) : (setRegs v s).legacy = s.legacy := rfl

@[simp] theorem setPc_regs (v : Word) (s : State) : (setPc v s).regs = s.regs := rfl
@[simp] theorem setPc_pc (v : Word) (s : State) : (setPc v s).pc = v := rfl
@[simp] theorem setPc_ar (v : Word) (s : State) : (setPc v s).ar = s.ar := rfl
@[simp] theorem setPc_stack (v : Word) (s : State) : (setPc v s).stack = s.stack := rfl
@[simp] theorem setPc_dt (v : Word) (s : State) : (setPc v s).dt = s.dt := rfl
@[simp] theorem setPc_st (v : Word) (s : State) : (setPc v s).st = s.st := rfl
@[simp] theorem setPc_mem (v : Word) (s : State) : (setPc v s).mem = s.mem := rfl
@[simp] theorem setPc_fault (v : Word) (s : State) : (setPc v s).fault = s.fault := rfl
@[simp] theorem setPc_clock (v : Word) (s : State) : (setPc v s).clock = s.clock := rfl
@[simp] theorem setPc_ports (v : Word) (s : State) : (setPc v s).ports = s.ports := rfl
@[simp] theorem setPc_legacy (v : Word) (s : State) : (setPc v s).legacy = s.legacy := rfl

@[simp] theorem setAr_regs (v : Word) (s : State) : (setAr v s).regs = s.regs := rfl
@[simp] theorem setAr_pc (v : Word) (s : State) : (setAr v s).pc = s.pc := rfl
@[simp] theorem setAr_ar (v : Word) (s : State) : (setAr v s).ar = v := rfl
@[simp] theorem setAr_stack (v : Word) (s : State) : (setAr v s).stack = s.stack := rfl
@[simp] theorem setAr_dt (v : Word) (s : State) : (setAr v s).dt = s.dt := rfl
@[simp] theorem setAr_st (v : Word) (s : State) : (setAr v s).st = s.st := rfl
@[simp] theorem setAr_mem (v : Word) (s : State) : (setAr v s).mem = s.mem := rfl
@[simp] theorem setAr_fault (v : Word) (s : State) : (setAr v s).fault = s.fault := rfl
@[simp] theorem setAr_clock (v : Word) (s : State) : (setAr v s).clock = s.clock := rfl
@[simp] theorem setAr_ports (v : Word) (s : State) : (setAr v s).ports = s.ports := rfl
@[simp] theorem setAr_legacy (v : Word) (s : State) : (setAr v s).legacy = s.legacy := rfl

@[simp] theorem setStack_regs (v : List Word) (s : State) : (setStack v s).regs = s.regs := rfl
@[simp] theorem setStack_pc (v : List Word) (s : State) : (setStack v s).pc = s.pc := rfl
@[simp] theorem setStack_ar (v : List Word) (s : State) : (setStack v s).ar = s.ar := rfl
@[simp] theorem setStack_stack (v : List Word) (s : State) : (setStack v s).stack = v := rfl
@[simp] theorem setStack_dt (v : List Word) (s : State) : (setStack v s).dt = s.dt := rfl
@[simp] theorem setStack_st (v : List Word) (s : State) : (setStack v s).st = s.st := rfl
@[simp] theorem setStack_mem (v : List Word) (s : State) : (setStack v s).mem = s.mem := rfl
@[simp] theorem setStack_fault (v : List Word) (s : State) : (setStack v s).fault = s.fault := rfl
@[simp] theorem setStack_clock (v : List Word) (s : State) : (setStack v s).clock = s.clock := rfl
@[simp] theorem setStack_ports (v : List Word) (s : State) : (setStack v s).ports = s.ports := rfl
@[simp] theorem setStack_legacy (v : List Word) (s : State) : (setStack v s).legacy = s.legacy := rfl

@[simp] theorem setDt_regs (v : Byte) (s : State) : (setDt v s).regs = s.regs := rfl
@[simp] theorem setDt_pc (v : Byte) (s : State) : (setDt v s).pc = s.pc := rfl
@[simp] theorem setDt_ar (v : Byte) (s : State) : (setDt v s).ar = s.ar := rfl
@[simp] theorem setDt_stack (v : Byte) (s : State) : (setDt v s).stack = s.stack := rfl
@[simp] theorem setDt_dt (v : Byte) (s : State) : (setDt v s).dt = v := rfl
@[simp] theorem setDt_st (v : Byte) (s : State) : (setDt v s).st = s.st := rfl
@[simp] theorem setDt_mem (v : Byte) (s : State) : (setDt v s).mem = s.mem := rfl
@[simp] theorem setDt_fault (v : Byte) (s : State) : (setDt v s).fault = s.fault := rfl
@[simp] theorem setDt_clock (v : Byte) (s : State) : (setDt v s).clock = s.clock := rfl
@[simp] theorem setDt_ports (v : Byte) (s : State) : (setDt v s).ports = s.ports := rfl
@[simp] theorem setDt_legacy (v : Byte) (s : State) : (setDt v s).legacy = s.legacy := rfl

@[simp] theorem setSt_regs (v : Byte) (s : State) : (setSt v s).regs = s.regs := rfl
@[simp] theorem setSt_pc (v : Byte) (s : State) : (setSt v s).pc = s.pc := rfl
@[simp] theorem setSt_ar (v : Byte) (s : State) : (setSt v s).ar = s.ar := rfl
@[simp] theorem setSt_stack (v : Byte) (s : State) : (setSt v s).stack = s.stack := rfl
@[simp] theorem setSt_dt (v : Byte) (s : State) : (setSt v s).dt = s.dt := rfl
@[simp] theorem setSt_st (v : Byte) (s : State) : (setSt v s).st = v := rfl
@[simp] theorem setSt_mem (v : Byte) (s : State) : (setSt v s).mem = s.mem := rfl
@[simp] theorem setSt_fault (v : Byte) (s : State) : (setSt v s).fault = s.fault := rfl
@[simp] theorem setSt_clock (v : Byte) (s : State) : (setSt v s).clock = s.clock := rfl
@[simp] theorem setSt_ports (v : Byte) (s : State) : (setSt v s).ports = s.ports := rfl
@[simp] theorem setSt_legacy (v : Byte) (s : State) : (setSt v s).legacy = s.legacy := rfl

@[simp] theorem setMem_regs (v : Memory) (s : State) : (setMem v s).regs = s.regs := rfl
@[simp] theorem setMem_pc (v : Memory) (s : State) : (setMem v s).pc = s.pc := rfl
@[simp] theorem setMem_ar (v : Memory) (s : State) : (setMem v s).ar = s.ar := rfl
@[simp] theorem setMem_stack (v : Memory) (s : State) : (setMem v s).stack = s.stack := rfl
@[simp] theorem setMem_dt (v : Memory) (s : State) : (setMem v s).dt = s.dt := rfl
@[simp] theorem setMem_st (v : Memory) (s : State) : (setMem v s).st = s.st := rfl
@[simp] theorem setMem_mem (v : Memory) (s : State) : (setMem v s).mem = v := rfl
@[simp] theorem setMem_fault (v : Memory) (s : State) : (setMem v s).fault = s.fault := rfl
@[simp] theorem setMem_clock (v : Memory) (s : State) : (setMem v s).clock = s.clock := rfl
@[simp] theorem setMem_ports (v : Memory) (s : State) : (setMem v s).ports = s.ports := rfl
@[simp] theorem setMem_legacy (v : Memory) (s : State) : (setMem v s).legacy = s.legacy := rfl

@[simp] theorem setFault_regs (v : FaultRecord) (s : State) : (setFault v s).regs = s.regs := rfl
@[simp] theorem setFault_pc (v : FaultRecord) (s : State) : (setFault v s).pc = s.pc := rfl
@[simp] theorem setFault_ar (v : FaultRecord) (s : State) : (setFault v s).ar = s.ar := rfl
@[simp] theorem setFault_stack (v : FaultRecord) (s : State) : (setFault v s).stack = s.stack := rfl
@[simp] theorem setFault_dt (v : FaultRecord) (s : State) : (setFault v s).dt = s.dt := rfl
@[simp] theorem setFault_st (v : FaultRecord) (s : State) : (setFault v s).st = s.st := rfl
@[simp] theorem setFault_mem (v : FaultRecord) (s : State) : (setFault v s).mem = s.mem := rfl
@[simp] theorem setFault_fault (v : FaultRecord) (s : State) : (setFault v s).fault = v := rfl
@[simp] theorem setFault_clock (v : FaultRecord) (s : State) : (setFault v s).clock = s.clock := rfl
@[simp] theorem setFault_ports (v : FaultRecord) (s : State) : (setFault v s).ports = s.ports := rfl
@[simp] theorem setFault_legacy (v : FaultRecord) (s : State) : (setFault v s).legacy = s.legacy := rfl

@[simp] theorem setClock_regs (v : Clock) (s : State) : (setClock v s).regs = s.regs := rfl
@[simp] theorem setClock_pc (v : Clock) (s : State) : (setClock v s).pc = s.pc := rfl
@[simp] theorem setClock_ar (v : Clock) (s : State) : (setClock v s).ar = s.ar := rfl
@[simp] theorem setClock_stack (v : Clock) (s : State) : (setClock v s).stack = s.stack := rfl
@[simp] theorem setClock_dt (v : Clock) (s : State) : (setClock v s).dt = s.dt := rfl
@[simp] theorem setClock_st (v : Clock) (s : State) : (setClock v s).st = s.st := rfl
@[simp] theorem setClock_mem (v : Clock) (s : State) : (setClock v s).mem = s.mem := rfl
@[simp] theorem setClock_fault (v : Clock) (s : State) : (setClock v s).fault = s.fault := rfl
@[simp] theorem setClock_clock (v : Clock) (s : State) : (setClock v s).clock = v := rfl
@[simp] theorem setClock_ports (v : Clock) (s : State) : (setClock v s).ports = s.ports := rfl
@[simp] theorem setClock_legacy (v : Clock) (s : State) : (setClock v s).legacy = s.legacy := rfl

@[simp] theorem setPorts_regs (v : Ports) (s : State) : (setPorts v s).regs = s.regs := rfl
@[simp] theorem setPorts_pc (v : Ports) (s : State) : (setPorts v s).pc = s.pc := rfl
@[simp] theorem setPorts_ar (v : Ports) (s : State) : (setPorts v s).ar = s.ar := rfl
@[simp] theorem setPorts_stack (v : Ports) (s : State) : (setPorts v s).stack = s.stack := rfl
@[simp] theorem setPorts_dt (v : Ports) (s : State) : (setPorts v s).dt = s.dt := rfl
@[simp] theorem setPorts_st (v : Ports) (s : State) : (setPorts v s).st = s.st := rfl
@[simp] theorem setPorts_mem (v : Ports) (s : State) : (setPorts v s).mem = s.mem := rfl
@[simp] theorem setPorts_fault (v : Ports) (s : State) : (setPorts v s).fault = s.fault := rfl
@[simp] theorem setPorts_clock (v : Ports) (s : State) : (setPorts v s).clock = s.clock := rfl
@[simp] theorem setPorts_ports (v : Ports) (s : State) : (setPorts v s).ports = v := rfl
@[simp] theorem setPorts_legacy (v : Ports) (s : State) : (setPorts v s).legacy = s.legacy := rfl

@[simp] theorem setLegacy_regs (v : Legacy) (s : State) : (setLegacy v s).regs = s.regs := rfl
@[simp] theorem setLegacy_pc (v : Legacy) (s : State) : (setLegacy v s).pc = s.pc := rfl
@[simp] theorem setLegacy_ar (v : Legacy) (s : State) : (setLegacy v s).ar = s.ar := rfl
@[simp] theorem setLegacy_stack (v : Legacy) (s : State) : (setLegacy v s).stack = s.stack := rfl
@[simp] theorem setLegacy_dt (v : Legacy) (s : State) : (setLegacy v s).dt = s.dt := rfl
@[simp] theorem setLegacy_st (v : Legacy) (s : State) : (setLegacy v s).st = s.st := rfl
@[simp] theorem setLegacy_mem (v : Legacy) (s : State) : (setLegacy v s).mem = s.mem := rfl
@[simp] theorem setLegacy_fault (v : Legacy) (s : State) : (setLegacy v s).fault = s.fault := rfl
@[simp] theorem setLegacy_clock (v : Legacy) (s : State) : (setLegacy v s).clock = s.clock := rfl
@[simp] theorem setLegacy_ports (v : Legacy) (s : State) : (setLegacy v s).ports = s.ports := rfl
@[simp] theorem setLegacy_legacy (v : Legacy) (s : State) : (setLegacy v s).legacy = v := rfl

end Sys2Proof.Machine
end

