-- ==== Sys2Proof/Laws/Ops.lean ====
section
/-! SUPPORT. What each shared operation does, said once: the composite updates as updates of one field, reading after writing for
registers and memory, the canonical form of memory, and the blocks of Dump and Load. -/

namespace Sys2Proof.Machine

/-! ### Parameters -/

@[simp] theorem memSize_eq : memSize = 4096 := rfl
@[simp] theorem loadBase_eq : loadBase = 0x200 := rfl
@[simp] theorem loadLimit_eq : loadLimit = 0xEA0 := rfl
@[simp] theorem stackCap_eq : stackCap = 24 := rfl
@[simp] theorem tickRate_eq : tickRate = 60 := rfl
@[simp] theorem insnWidth_eq : insnWidth = 2 := rfl
@[simp] theorem flagReg_eq : flagReg = 15 := rfl
@[simp] theorem hardwareParams_legacy : hardwareParams.legacy = hardwareLegacy := rfl
@[simp] theorem carriedParams_memSize (s : State) : (carriedParams s).memSize = 4096 := rfl
@[simp] theorem carriedParams_loadBase (s : State) : (carriedParams s).loadBase = 0x200 := rfl
@[simp] theorem carriedParams_loadLimit (s : State) : (carriedParams s).loadLimit = 0xEA0 := rfl
@[simp] theorem carriedParams_stackCap (s : State) : (carriedParams s).stackCap = 24 := rfl
@[simp] theorem carriedParams_tickRate (s : State) : (carriedParams s).tickRate = 60 := rfl
@[simp] theorem carriedParams_legacy (s : State) : (carriedParams s).legacy = s.legacy := rfl

/-! ### Composite updates as updates of one field -/

@[simp] theorem readReg_eq (r : Reg) (s : State) : readReg r s = readAt s.regs r := rfl
@[simp] theorem writeReg_eq (r : Reg) (v : Byte) (s : State) : writeReg r v s = setRegs (writeAt s.regs r v) s := rfl
@[simp] theorem setFlag_eq (v : Byte) (s : State) : setFlag v s = setRegs (writeAt s.regs 15 v) s := rfl
@[simp] theorem advance_eq (s : State) : advance s = setPc (s.pc + 2) s := rfl
@[simp] theorem skipIf_eq (c : Bool) (s : State) : skipIf c s = setPc (s.pc + if c then 4 else 2) s := by
  cases c <;> rfl
@[simp] theorem depth_eq (s : State) : depth s = s.stack.length := rfl
@[simp] theorem push_eq (v : Word) (s : State) : push v s = setStack (s.stack ++ [v]) s := rfl
@[simp] theorem bumpAr_eq (reg : Reg) (s : State) : bumpAr reg s = setAr (s.ar + BitVec.ofNat 16 (reg.val + 1)) s := rfl
@[simp] theorem readByte_eq (a : Nat) (s : State) : readByte a s = Memory.read s.mem a := rfl
@[simp] theorem writeByte_eq (a : Nat) (v : Byte) (s : State) : writeByte a v s = setMem (Memory.write s.mem a v) s := rfl
@[simp] theorem clearPorts_eq (s : State) : clearPorts s = setPorts Ports.silent s := rfl
@[simp] theorem emitIntent_eq (i : Instr) (s : State) : emitIntent i s = setPorts { s.ports with intent := some i } s := rfl
@[simp] theorem emitDiag_eq (d : Diag) (s : State) : emitDiag d s = setPorts { s.ports with diag := some d } s := rfl
@[simp] theorem emitTrace_eq (d : Decoded) (s : State) :
    emitTrace d s = setPorts { s.ports with trace := some ⟨s.pc, s.dt, s.st, d⟩ } s := rfl
@[simp] theorem raiseFault_eq (c : FaultCause) (info : Word) (s : State) :
    raiseFault c info s = setFault ⟨true, c, s.pc, info⟩ s := rfl
@[simp] theorem halted_eq (s : State) : halted s = s.fault.valid := rfl

/-- `pop` on an empty stack (R121). -/
theorem pop_nil {s : State} (h : s.stack = []) : pop s = none := by simp [pop, h]

/-- `pop` takes the last entry (R9, R27). -/
theorem pop_append {s : State} {rest : List Word} {t : Word} (h : s.stack = rest ++ [t]) :
    pop s = some (t, setStack rest s) := by simp [pop, h]

/-! ### Registers -/

theorem readAt_writeAt (rs : RegFile) (r q : Reg) (v : Byte) :
    readAt (writeAt rs r v) q = if q = r then v else readAt rs q := by
  simp only [readAt, writeAt, Fin.getElem_fin, Vector.getElem_set, Fin.ext_iff]
  by_cases h : r.val = q.val
  · simp [h]
  · simp [h, Ne.symm h]

@[simp] theorem readAt_writeAt_same (rs : RegFile) (r : Reg) (v : Byte) : readAt (writeAt rs r v) r = v := by
  simp [readAt_writeAt]

theorem readAt_writeAt_ne (rs : RegFile) {r q : Reg} (h : q ≠ r) (v : Byte) :
    readAt (writeAt rs r v) q = readAt rs q := by
  simp [readAt_writeAt, h]

/-- Two register files that read alike are equal. -/
theorem regFile_ext {rs qs : RegFile} (h : ∀ r, readAt rs r = readAt qs r) : rs = qs :=
  Vector.ext fun i hi => h ⟨i, hi⟩

@[simp] theorem regNo_val (r : Reg) : regNo r.val = r := by
  simp [regNo]

theorem val_regNo {n : Nat} (h : n < 16) : (regNo n).val = n := by
  simp [regNo, Fin.ofNat, Nat.mod_eq_of_lt h]

/-! ### Memory: reading after writing, and the canonical form -/

theorem read_without (m : Memory) (a b : Nat) :
    Memory.read (Memory.without m a) b = if b = a then 0 else Memory.read m b := by
  induction m with
  | nil => simp [Memory.without, Memory.read]
  | cons c rest ih =>
    simp only [Memory.without] at ih
    by_cases hc : c.1 = a
    · by_cases hb : b = a
      · simpa [Memory.without, hc, hb] using (by simpa [hb] using ih)
      · simp [Memory.without, Memory.read, hc, hb, ih, Ne.symm hb]
    · by_cases hb : c.1 = b
      · subst hb
        simp [Memory.without, Memory.read, hc]
      · simp [Memory.without, Memory.read, hc, hb, ih]

theorem read_place (m : Memory) (a b : Nat) (v : Byte) (h : ∀ c ∈ m, c.1 ≠ a) :
    Memory.read (Memory.place a v m) b = if b = a then v else Memory.read m b := by
  induction m with
  | nil => simp [Memory.place, Memory.read, eq_comm]
  | cons c rest ih =>
    have hc : c.1 ≠ a := h c (by simp)
    have ih := ih fun d hd => h d (by simp [hd])
    by_cases hl : a < c.1
    · simp [Memory.place, Memory.read, hl, eq_comm]
    · by_cases hb : c.1 = b
      · subst hb
        simp [Memory.place, Memory.read, hl, hc]
      · simp [Memory.place, Memory.read, hl, hb, ih]

/-- Memory without an address lists it nowhere. -/
theorem not_mem_without (m : Memory) (a : Nat) : ∀ c ∈ Memory.without m a, c.1 ≠ a := by
  simp [Memory.without]

/-- A byte written is the byte read there, and every other address reads as before (20_memory.md R61). -/
theorem read_write (m : Memory) (a b : Nat) (v : Byte) :
    Memory.read (Memory.write m a v) b = if b = a then v else Memory.read m b := by
  unfold Memory.write
  split
  · rename_i h
    rw [read_without, h]
  · rw [read_place _ _ _ _ (not_mem_without m a), read_without]
    split <;> rfl

/-- What `place` lists. -/
theorem mem_place (m : Memory) (a : Nat) (v : Byte) (c : Host.Cell) :
    c ∈ Memory.place a v m ↔ c = (a, v) ∨ c ∈ m := by
  induction m with
  | nil => simp [Memory.place]
  | cons d rest ih =>
    by_cases h : a < d.1
    · simp [Memory.place, h]
    · simp only [Memory.place, h, if_false, List.mem_cons, ih]
      tauto

theorem wf_without {m : Memory} (a : Nat) (h : Memory.wf m) : Memory.wf (Memory.without m a) :=
  ⟨h.1.filter _, fun c hc => h.2 c (List.mem_of_mem_filter hc)⟩

theorem wf_place {m : Memory} {a : Nat} {v : Byte} (h : Memory.wf m) (ha : ∀ c ∈ m, c.1 ≠ a) (hv : v ≠ 0) :
    Memory.wf (Memory.place a v m) := by
  refine ⟨?_, fun c hc => ?_⟩
  · replace h := h.1
    induction m with
    | nil => simp [Memory.place]
    | cons d rest ih =>
      have hd := List.pairwise_cons.1 h
      have had : d.1 ≠ a := ha d (by simp)
      by_cases hl : a < d.1
      · simp only [Memory.place, hl, if_true, List.pairwise_cons]
        exact ⟨fun e he => by
          rcases List.mem_cons.1 he with rfl | he
          · exact hl
          · exact hl.trans (hd.1 e he), hd⟩
      · simp only [Memory.place, hl, if_false, List.pairwise_cons]
        refine ⟨fun e he => ?_, ih (fun c hc => ha c (by simp [hc])) hd.2⟩
        rcases (mem_place _ _ _ _).1 he with rfl | he
        · exact Nat.lt_of_le_of_ne (Nat.le_of_not_lt hl) had
        · exact hd.1 e he
  · rcases (mem_place _ _ _ _).1 hc with rfl | hc
    · exact hv
    · exact h.2 c hc

/-- Every write keeps the canonical form. -/
theorem wf_write {m : Memory} (a : Nat) (v : Byte) (h : Memory.wf m) : Memory.wf (Memory.write m a v) := by
  unfold Memory.write
  split
  · exact wf_without a h
  · rename_i hv
    exact wf_place (wf_without a h) (not_mem_without m a) hv

/-- A write inside memory lists nothing outside it. -/
theorem inRange_write {size : Nat} {m : Memory} {a : Nat} (v : Byte) (ha : a < size) (h : Memory.inRange size m) :
    Memory.inRange size (Memory.write m a v) := by
  intro c hc
  unfold Memory.write at hc
  split at hc
  · exact h c (List.mem_of_mem_filter hc)
  · rcases (mem_place _ _ _ _).1 hc with rfl | hc
    · exact ha
    · exact h c (List.mem_of_mem_filter hc)

/-! ### The blocks of Dump and Load (R172 to R175) -/

/-- A stored block: its bytes are the registers, and every other byte is as before. -/
theorem read_storeBlock (m : Memory) (rs : RegFile) (a n b : Nat) :
    Memory.read (storeBlock m rs a n) b = if a ≤ b ∧ b < a + n then readAt rs (regNo (b - a)) else Memory.read m b := by
  induction n with
  | zero =>
    simp [storeBlock]
  | succ n ih =>
    rw [storeBlock, read_write, ih]
    by_cases hb : b = a + n
    · subst hb
      simp
    · rw [if_neg hb]
      have : (a ≤ b ∧ b < a + n) ↔ (a ≤ b ∧ b < a + (n + 1)) := by omega
      simp only [this]

theorem wf_storeBlock {m : Memory} (rs : RegFile) (a n : Nat) (h : Memory.wf m) : Memory.wf (storeBlock m rs a n) := by
  induction n with
  | zero => exact h
  | succ n ih => exact wf_write _ _ ih

theorem inRange_storeBlock {size : Nat} {m : Memory} (rs : RegFile) {a n : Nat} (ha : a + n ≤ size) (h : Memory.inRange size m) :
    Memory.inRange size (storeBlock m rs a n) := by
  induction n with
  | zero => exact h
  | succ n ih => exact inRange_write _ (by omega) (ih (by omega))

/-- A loaded block: its registers are the bytes, and every other register is as before. -/
theorem readAt_loadBlock (m : Memory) (rs : RegFile) (a : Nat) {n : Nat} (hn : n ≤ 16) (r : Reg) :
    readAt (loadBlock m rs a n) r = if r.val < n then Memory.read m (a + r.val) else readAt rs r := by
  induction n with
  | zero => simp [loadBlock]
  | succ n ih =>
    have hv : (regNo n).val = n := val_regNo (by omega)
    rw [loadBlock, readAt_writeAt, ih (by omega)]
    by_cases hr : r = regNo n
    · subst hr
      simp [hv]
    · have : r.val ≠ n := fun e => hr (Fin.ext (by rw [hv, e]))
      have : r.val < n ↔ r.val < n + 1 := by omega
      simp [hr, this]

/-- The check of the corrected block (R172). -/
theorem blockOutside_iff (size : Nat) (ar : Word) (reg : Reg) :
    blockOutside size ar reg = true ↔ ar.toNat + reg.val + 1 > size := by
  simp [blockOutside]

/-- The check of the legacy block (R174). -/
theorem legacyIndexOutside_iff (ar : Word) (reg : Reg) :
    legacyIndexOutside ar reg = true ↔ ∃ i ≤ reg.val, (ar.toNat + i) % 256 > 15 := by
  simp [legacyIndexOutside, legacyIndex]

/-! ### Program load (R252) -/

theorem read_loadBytes (img : List Byte) (a b : Nat) (m : Memory) :
    Memory.read (loadBytes a img m) b =
      if a ≤ b ∧ b < a + img.length then img.getD (b - a) 0 else Memory.read m b := by
  induction img generalizing a m with
  | nil =>
    simp [loadBytes]
  | cons v rest ih =>
    rw [loadBytes, ih, read_write]
    by_cases hb : b = a
    · subst hb
      simp
    · by_cases h : a + 1 ≤ b ∧ b < a + 1 + rest.length
      · have h' : a ≤ b ∧ b < a + (v :: rest).length := by simp; omega
        have : b - a = (b - (a + 1)) + 1 := by omega
        rw [if_pos h, if_pos h', this]
        simp
      · have h' : ¬(a ≤ b ∧ b < a + (v :: rest).length) := by simp; omega
        rw [if_neg h, if_neg h', if_neg hb]

theorem wf_loadBytes (img : List Byte) (a : Nat) {m : Memory} (h : Memory.wf m) : Memory.wf (loadBytes a img m) := by
  induction img generalizing a m with
  | nil => exact h
  | cons v rest ih => exact ih _ (wf_write _ _ h)

theorem inRange_loadBytes {size : Nat} (img : List Byte) {a : Nat} {m : Memory} (ha : a + img.length ≤ size)
    (h : Memory.inRange size m) : Memory.inRange size (loadBytes a img m) := by
  induction img generalizing a m with
  | nil => exact h
  | cons v rest ih =>
    simp only [List.length_cons] at ha
    exact ih (by omega) (inRange_write _ (by omega) h)

end Sys2Proof.Machine
end

