-- ==== Sys2Proof/Laws/Meanings.lean ====
section
/-! SUPPORT. The branches of the meanings that test something, one equation for each, so that a proof about them needs no case split
on their text: first with the parameters as an argument (10_state.md R38), then at this hardware's sizes. The other meanings have one
branch and are equal to it by definition. -/

namespace Sys2Proof.Machine

theorem execReturn_empty {s : State} (h : s.stack = []) :
    execReturn s = .next (advance (emitDiag (.emptyReturn s.pc) s)) := by
  simp only [execReturn, pop_nil h]

theorem execReturn_pop {s : State} {rest : List Word} {top : Word} (h : s.stack = rest ++ [top]) :
    execReturn s = .next (setPc (top + 2) (setStack rest s)) := by
  simp [execReturn, pop_append h]

/-! ### With the parameters as an argument -/

section
variable {p : Params} {s : State} {reg : Reg}

theorem callFunctionWith_full (addr : Addr12) (h : s.stack.length = p.stackCap) :
    callFunctionWith p addr s = .next (raiseFault .stackOverflow (zext16 addr) s) := if_pos h

theorem callFunctionWith_push (addr : Addr12) (h : s.stack.length ≠ p.stackCap) :
    callFunctionWith p addr s = .next (setPc (zext16 addr) (push s.pc s)) := if_neg h

theorem dumpWith_outside (hl : p.legacy.dumpLoad = false) (h : s.ar.toNat + reg.val + 1 > p.memSize) :
    dumpWith p reg s = .next (raiseFault .memRange s.ar s) := by
  simp [dumpWith, hl, dumpToMemory, (blockOutside_iff p.memSize s.ar reg).2 h]

theorem dumpWith_inside (hl : p.legacy.dumpLoad = false) (h : s.ar.toNat + reg.val + 1 ≤ p.memSize) :
    dumpWith p reg s = .next (advance (bumpAr reg (setMem (storeBlock s.mem s.regs s.ar.toNat (reg.val + 1)) s))) := by
  have : blockOutside p.memSize s.ar reg = false := by rw [Bool.eq_false_iff, Ne, blockOutside_iff]; omega
  simp only [dumpWith, hl, dumpToMemory, this]
  rfl

theorem loadWith_outside (hl : p.legacy.dumpLoad = false) (h : s.ar.toNat + reg.val + 1 > p.memSize) :
    loadWith p reg s = .next (raiseFault .memRange s.ar s) := by
  simp [loadWith, hl, loadFromMemory, (blockOutside_iff p.memSize s.ar reg).2 h]

theorem loadWith_inside (hl : p.legacy.dumpLoad = false) (h : s.ar.toNat + reg.val + 1 ≤ p.memSize) :
    loadWith p reg s = .next (advance (bumpAr reg (setRegs (loadBlock s.mem s.regs s.ar.toNat (reg.val + 1)) s))) := by
  have : blockOutside p.memSize s.ar reg = false := by rw [Bool.eq_false_iff, Ne, blockOutside_iff]; omega
  simp only [loadWith, hl, loadFromMemory, this]
  rfl

theorem legacyIndexOutside_false (h : ∀ i ≤ reg.val, (s.ar.toNat + i) % 256 ≤ 15) : legacyIndexOutside s.ar reg = false := by
  rw [Bool.eq_false_iff, Ne, legacyIndexOutside_iff]
  rintro ⟨i, hi, hx⟩
  have := h i hi
  omega

theorem dumpWith_legacy_outside (hl : p.legacy.dumpLoad = true) (h : ∃ i ≤ reg.val, (s.ar.toNat + i) % 256 > 15) :
    dumpWith p reg s = .next (raiseFault .legacyIndexRange s.ar s) := by
  simp [dumpWith, hl, dumpToRegisters, (legacyIndexOutside_iff s.ar reg).2 h]

theorem dumpWith_legacy_inside (hl : p.legacy.dumpLoad = true) (h : ∀ i ≤ reg.val, (s.ar.toNat + i) % 256 ≤ 15) :
    dumpWith p reg s = .next (advance (bumpAr reg (setRegs (legacyDumpBlock s.regs s.ar (reg.val + 1)) s))) := by
  simp only [dumpWith, hl, dumpToRegisters, legacyIndexOutside_false h]
  rfl

theorem loadWith_legacy_outside (hl : p.legacy.dumpLoad = true) (h : ∃ i ≤ reg.val, (s.ar.toNat + i) % 256 > 15) :
    loadWith p reg s = .next (raiseFault .legacyIndexRange s.ar s) := by
  simp [loadWith, hl, loadFromRegisters, (legacyIndexOutside_iff s.ar reg).2 h]

theorem loadWith_legacy_inside (hl : p.legacy.dumpLoad = true) (h : ∀ i ≤ reg.val, (s.ar.toNat + i) % 256 ≤ 15) :
    loadWith p reg s = .next (advance (bumpAr reg (setRegs (legacyLoadBlock s.regs s.ar (reg.val + 1)) s))) := by
  simp only [loadWith, hl, loadFromRegisters, legacyIndexOutside_false h]
  rfl

end

/-! ### At this hardware's sizes -/

section
variable {s : State} {reg : Reg}

theorem execCallFunction_full (addr : Addr12) (h : s.stack.length = 24) :
    execCallFunction addr s = .next (raiseFault .stackOverflow (zext16 addr) s) := callFunctionWith_full addr h

theorem execCallFunction_push (addr : Addr12) (h : s.stack.length ≠ 24) :
    execCallFunction addr s = .next (setPc (zext16 addr) (push s.pc s)) := callFunctionWith_push addr h

theorem execDump_outside (hl : s.legacy.dumpLoad = false) (h : s.ar.toNat + reg.val > 4095) :
    execDump reg s = .next (raiseFault .memRange s.ar s) := dumpWith_outside hl (by simp only [carriedParams_memSize]; omega)

theorem execDump_inside (hl : s.legacy.dumpLoad = false) (h : s.ar.toNat + reg.val ≤ 4095) :
    execDump reg s = .next (advance (bumpAr reg (setMem (storeBlock s.mem s.regs s.ar.toNat (reg.val + 1)) s))) :=
  dumpWith_inside hl (by simp only [carriedParams_memSize]; omega)

theorem execLoad_outside (hl : s.legacy.dumpLoad = false) (h : s.ar.toNat + reg.val > 4095) :
    execLoad reg s = .next (raiseFault .memRange s.ar s) := loadWith_outside hl (by simp only [carriedParams_memSize]; omega)

theorem execLoad_inside (hl : s.legacy.dumpLoad = false) (h : s.ar.toNat + reg.val ≤ 4095) :
    execLoad reg s = .next (advance (bumpAr reg (setRegs (loadBlock s.mem s.regs s.ar.toNat (reg.val + 1)) s))) :=
  loadWith_inside hl (by simp only [carriedParams_memSize]; omega)

theorem execDump_legacy_outside (hl : s.legacy.dumpLoad = true) (h : ∃ i ≤ reg.val, (s.ar.toNat + i) % 256 > 15) :
    execDump reg s = .next (raiseFault .legacyIndexRange s.ar s) := dumpWith_legacy_outside hl h

theorem execDump_legacy_inside (hl : s.legacy.dumpLoad = true) (h : ∀ i ≤ reg.val, (s.ar.toNat + i) % 256 ≤ 15) :
    execDump reg s = .next (advance (bumpAr reg (setRegs (legacyDumpBlock s.regs s.ar (reg.val + 1)) s))) :=
  dumpWith_legacy_inside hl h

theorem execLoad_legacy_outside (hl : s.legacy.dumpLoad = true) (h : ∃ i ≤ reg.val, (s.ar.toNat + i) % 256 > 15) :
    execLoad reg s = .next (raiseFault .legacyIndexRange s.ar s) := loadWith_legacy_outside hl h

theorem execLoad_legacy_inside (hl : s.legacy.dumpLoad = true) (h : ∀ i ≤ reg.val, (s.ar.toNat + i) % 256 ≤ 15) :
    execLoad reg s = .next (advance (bumpAr reg (setRegs (legacyLoadBlock s.regs s.ar (reg.val + 1)) s))) :=
  loadWith_legacy_inside hl h

end

end Sys2Proof.Machine
end

