-- ==== Sys2Proof/Laws/Cycle.lean ====
section
/-! SUPPORT. What the timer phase and a cycle can do, said once: a cycle's four ways, for the shape and for `cycle`,
and the host's run; later proofs cite these instead of unfolding. -/

namespace Sys2Proof.Machine

/-! ### The timer phase writes the timers and the clock only -/

@[simp] theorem timerDecay_eq (dec : Nat) (s : State) : timerDecay dec s = setSt (decay dec s.st) (setDt (decay dec s.dt) s) := rfl

@[simp] theorem timerDriver_regs (s : State) : (timerDriver s).regs = s.regs := rfl
@[simp] theorem timerDriver_pc (s : State) : (timerDriver s).pc = s.pc := rfl
@[simp] theorem timerDriver_ar (s : State) : (timerDriver s).ar = s.ar := rfl
@[simp] theorem timerDriver_stack (s : State) : (timerDriver s).stack = s.stack := rfl
@[simp] theorem timerDriver_dt (s : State) : (timerDriver s).dt = decay (decrement s) s.dt := rfl
@[simp] theorem timerDriver_st (s : State) : (timerDriver s).st = decay (decrement s) s.st := rfl
@[simp] theorem timerDriver_mem (s : State) : (timerDriver s).mem = s.mem := rfl
@[simp] theorem timerDriver_fault (s : State) : (timerDriver s).fault = s.fault := rfl
@[simp] theorem timerDriver_clock (s : State) : (timerDriver s).clock = clockAfterDecay s := rfl
@[simp] theorem timerDriver_ports (s : State) : (timerDriver s).ports = s.ports := rfl
@[simp] theorem timerDriver_legacy (s : State) : (timerDriver s).legacy = s.legacy := rfl

/-- A decayed timer as a number: the difference clamped at 0 (R240). -/
theorem toNat_decay (dec : Nat) (t : Byte) : (decay dec t).toNat = t.toNat - dec := by
  have := t.isLt
  simp only [decay, BitVec.toNat_ofNat]
  rw [Nat.mod_eq_of_lt (by omega)]
  omega

/-- The counter after more pulses, as a number (R241). -/
theorem toNat_addTicks (p : Byte) (n : Nat) : (addTicks p n).toNat = min 255 (p.toNat + n) := by
  simp only [addTicks, BitVec.toNat_ofNat]
  rw [Nat.mod_eq_of_lt (by omega)]

/-! ### The state in which an instruction executes -/

@[simp] theorem fetched_eq (d : Decoded) (s : State) :
    fetched d s = setPorts { trace := some ⟨s.pc, s.dt, s.st, d⟩, intent := none, diag := none } s := rfl

@[simp] theorem fetchOutside_eq (size : Nat) (s : State) : fetchOutside size s = decide (s.pc.toNat + 2 > size) := rfl

/-! ### A cycle's four ways, for any parts of its shape -/

section
variable {execute : Instr → State → Answer} {size : Nat} {timers : State → State} {decoder : Byte → Byte → Decoded}
  {s t : State}

theorem cycleBy_of_halted (h : s.fault.valid = true) : cycleBy execute size timers decoder s = .next s := by
  simp [cycleBy, h]

theorem cycleBy_of_fetchOutside (h : s.fault.valid = false) (hp : s.pc.toNat + 2 > size) :
    cycleBy execute size timers decoder s = .next (raiseFault .fetchRange s.pc (clearPorts s)) := by
  simp [cycleBy, h, hp]

theorem cycleBy_of_op {i : Instr} (h : s.fault.valid = false) (hp : s.pc.toNat + 2 ≤ size)
    (hd : decoder (fetchByte0 s) (fetchByte1 s) = .op i) :
    cycleBy execute size timers decoder s = endCycle timers (execute i (fetched (.op i) s)) := by
  have : ¬s.pc.toNat + 2 > size := by omega
  simp only [cycleBy, halted_eq, h, fetchOutside_eq, this, hd, decodedBy]
  rfl

theorem cycleBy_of_data {b0 b1 : Byte} (h : s.fault.valid = false) (hp : s.pc.toNat + 2 ≤ size)
    (hd : decoder (fetchByte0 s) (fetchByte1 s) = .data b0 b1) :
    cycleBy execute size timers decoder s =
      .next (timers (execDataWord (wordOfBytes (fetchByte0 s) (fetchByte1 s)) (fetched (.data b0 b1) s))) := by
  have hn : ¬s.pc.toNat + 2 > size := by omega
  simp only [cycleBy, halted_eq, h, fetchOutside_eq, hn, hd, decodedBy, endCycle]
  have : (execDataWord (wordOfBytes (fetchByte0 s) (fetchByte1 s)) (fetched (.data b0 b1) s)).fault.valid = false := h
  simp only [this]
  rfl

/-- What a cycle that answers a next state did: it was halted, its fetch faulted, it ran a data word, or it executed an
instruction, whose state is final if it faulted and goes through the timer phase if not. -/
theorem cycleBy_cases (h : cycleBy execute size timers decoder s = .next t) :
    (s.fault.valid = true ∧ t = s) ∨
    (s.fault.valid = false ∧ s.pc.toNat + 2 > size ∧ t = raiseFault .fetchRange s.pc (clearPorts s)) ∨
    (s.fault.valid = false ∧ s.pc.toNat + 2 ≤ size ∧ ∃ b0 b1, decoder (fetchByte0 s) (fetchByte1 s) = .data b0 b1 ∧
      t = timers (execDataWord (wordOfBytes (fetchByte0 s) (fetchByte1 s)) (fetched (.data b0 b1) s))) ∨
    (s.fault.valid = false ∧ s.pc.toNat + 2 ≤ size ∧ ∃ i u, decoder (fetchByte0 s) (fetchByte1 s) = .op i ∧
      execute i (fetched (.op i) s) = .next u ∧
      ((u.fault.valid = true ∧ t = u) ∨ (u.fault.valid = false ∧ t = timers u))) := by
  cases hv : s.fault.valid with
  | true =>
    rw [cycleBy_of_halted hv] at h
    exact .inl ⟨rfl, by cases h; rfl⟩
  | false =>
    by_cases hp : s.pc.toNat + 2 > size
    · rw [cycleBy_of_fetchOutside hv hp] at h
      exact .inr (.inl ⟨rfl, hp, by cases h; rfl⟩)
    · have hp : s.pc.toNat + 2 ≤ size := by omega
      cases hd : decoder (fetchByte0 s) (fetchByte1 s) with
      | data b0 b1 =>
        rw [cycleBy_of_data hv hp hd] at h
        exact .inr (.inr (.inl ⟨rfl, hp, b0, b1, rfl, by cases h; rfl⟩))
      | op i =>
        rw [cycleBy_of_op hv hp hd] at h
        cases hu : execute i (fetched (.op i) s) with
        | fault r => rw [hu] at h; cases h
        | refused r => rw [hu] at h; cases h
        | next u =>
          rw [hu] at h
          refine .inr (.inr (.inr ⟨rfl, hp, i, u, rfl, hu, ?_⟩))
          cases hf : u.fault.valid with
          | true => exact .inl ⟨rfl, by simp only [endCycle, halted_eq, hf] at h; cases h; rfl⟩
          | false => exact .inr ⟨rfl, by simp only [endCycle, halted_eq, hf] at h; cases h; rfl⟩

/-! ### The four ways at this hardware's sizes -/

theorem cycle_of_halted (h : s.fault.valid = true) : cycle decoder s = .next s := cycleBy_of_halted h

theorem cycle_of_fetchOutside (h : s.fault.valid = false) (hp : s.pc.toNat > 4094) :
    cycle decoder s = .next (raiseFault .fetchRange s.pc (clearPorts s)) :=
  cycleBy_of_fetchOutside h (by simp only [memSize_eq]; omega)

theorem cycle_of_op {i : Instr} (h : s.fault.valid = false) (hp : s.pc.toNat ≤ 4094)
    (hd : decoder (fetchByte0 s) (fetchByte1 s) = .op i) :
    cycle decoder s = endCycle timerDriver (exec i (fetched (.op i) s)) :=
  cycleBy_of_op h (by simp only [memSize_eq]; omega) hd

theorem cycle_of_data {b0 b1 : Byte} (h : s.fault.valid = false) (hp : s.pc.toNat ≤ 4094)
    (hd : decoder (fetchByte0 s) (fetchByte1 s) = .data b0 b1) :
    cycle decoder s =
      .next (timerDriver (execDataWord (wordOfBytes (fetchByte0 s) (fetchByte1 s)) (fetched (.data b0 b1) s))) :=
  cycleBy_of_data h (by simp only [memSize_eq]; omega) hd

/-- What a cycle of `cycle` did. -/
theorem cycle_cases (h : cycle decoder s = .next t) :
    (s.fault.valid = true ∧ t = s) ∨
    (s.fault.valid = false ∧ s.pc.toNat > 4094 ∧ t = raiseFault .fetchRange s.pc (clearPorts s)) ∨
    (s.fault.valid = false ∧ s.pc.toNat ≤ 4094 ∧ ∃ b0 b1, decoder (fetchByte0 s) (fetchByte1 s) = .data b0 b1 ∧
      t = timerDriver (execDataWord (wordOfBytes (fetchByte0 s) (fetchByte1 s)) (fetched (.data b0 b1) s))) ∨
    (s.fault.valid = false ∧ s.pc.toNat ≤ 4094 ∧ ∃ i u, decoder (fetchByte0 s) (fetchByte1 s) = .op i ∧
      exec i (fetched (.op i) s) = .next u ∧
      ((u.fault.valid = true ∧ t = u) ∨ (u.fault.valid = false ∧ t = timerDriver u))) := by
  have size : (s.pc.toNat + 2 > memSize ↔ s.pc.toNat > 4094) ∧ (s.pc.toNat + 2 ≤ memSize ↔ s.pc.toNat ≤ 4094) := by
    simp only [memSize_eq]
    omega
  have := cycleBy_cases (h : cycleBy exec memSize timerDriver decoder s = .next t)
  rwa [size.1, size.2] at this

end

/-! ### The instructions with the parameters as an argument -/

/-- `exec` is `execWith` at the parameters that the state carries (log 2). -/
theorem execWith_carried (i : Instr) (s : State) : execWith (carriedParams s) i s = exec i s := by
  cases i <;> rfl

/-! ### The host's run over steps -/

theorem core_run_unfold (M : Host.Core) (n : Nat) (s : M.State) :
    M.run (n + 1) s =
      match M.step s with
      | .next t => M.run n t
      | .fault r => .fault r
      | .refused r => .refused r := rfl

/-- A run of `n + 1` steps is one step and a run of `n`. -/
theorem core_run_succ {s t : State} (n : Nat) (h : step s = .next t) :
    Host.Core.run Sys2Proof.core (n + 1) s = Host.Core.run Sys2Proof.core n t := by
  have h' : Sys2Proof.core.step s = .next t := h
  exact (core_run_unfold Sys2Proof.core n s).trans (by rw [h'])

/-! ### What the host's run(N) answers (60_exceptions.md R244) -/

/-- A halted engine runs no cycle and gives no record. -/
theorem runRecorded_of_halted {s : State} (n : Nat) (h : s.fault.valid = true) : runRecorded n s = ([], .next s) := by
  cases n <;> simp [runRecorded, h]

/-- A cycle that runs puts its records before those of the cycles after it. -/
theorem runRecorded_succ {s t : State} (n : Nat) (h : s.fault.valid = false) (ht : step s = .next t) :
    runRecorded (n + 1) s = (t.ports :: (runRecorded n t).1, (runRecorded n t).2) := by
  simp [runRecorded, h, ht]

theorem runCycles_of_halted {s : State} (n : Nat) (h : s.fault.valid = true) : runCycles n s = .next s := by
  simp [runCycles, runRecorded_of_halted n h]

theorem runCycles_succ {s t : State} (n : Nat) (h : s.fault.valid = false) (ht : step s = .next t) :
    runCycles (n + 1) s = runCycles n t := by
  simp [runCycles, runRecorded_succ n h ht]

/-- The record at place `k` is that of the cycle after `k` steps: the engine was not halted there, and the record is what the step
left on the ports. -/
theorem runRecorded_getElem {n k : Nat} {s : State} {record : Ports} (h : (runRecorded n s).1[k]? = some record) :
    ∃ t u : State, Host.Core.run Sys2Proof.core k s = .next t ∧ halted t = false ∧ step t = .next u ∧ record = u.ports := by
  induction n generalizing s k with
  | zero => simp [runRecorded] at h
  | succ n ih =>
    cases hv : s.fault.valid with
    | true => simp [runRecorded_of_halted (n + 1) hv] at h
    | false =>
      cases ht : step s with
      | fault r => simp [runRecorded, hv, ht] at h
      | refused r => simp [runRecorded, hv, ht] at h
      | next t =>
        rw [runRecorded_succ n hv ht] at h
        cases k with
        | zero => exact ⟨s, t, rfl, hv, ht, by simpa using h.symm⟩
        | succ k =>
          obtain ⟨v, w, hk, rest⟩ := ih (by simpa using h)
          exact ⟨v, w, (core_run_succ k ht).trans hk, rest⟩

end Sys2Proof.Machine
end

