-- ==== Sys2Proof/Laws/Decode.lean ====
section
/-! SUPPORT. The fields of an encoded word, and a word from its fields. -/

namespace Sys2Proof

@[simp] theorem regOfBits_bitsOfReg (r : Reg) : regOfBits (bitsOfReg r) = r := rfl
@[simp] theorem bitsOfReg_regOfBits (b : Nibble) : bitsOfReg (regOfBits b) = b := rfl

/-! ### Bytes of a word (R71) -/

@[simp] theorem wordOfBytes_high_low (w : Word) : wordOfBytes (highByte w) (lowByte w) = w := by
  apply BitVec.eq_of_getLsbD_eq; intro i hi
  simp only [wordOfBytes, highByte, lowByte, BitVec.getLsbD_extractLsb', BitVec.getLsbD_append]
  interval_cases i <;> rfl

@[simp] theorem highByte_wordOfBytes (b0 b1 : Byte) : highByte (wordOfBytes b0 b1) = b0 := by
  apply BitVec.eq_of_getLsbD_eq; intro i hi
  simp only [wordOfBytes, highByte, BitVec.getLsbD_extractLsb', BitVec.getLsbD_append]
  interval_cases i <;> rfl

@[simp] theorem lowByte_wordOfBytes (b0 b1 : Byte) : lowByte (wordOfBytes b0 b1) = b1 := by
  apply BitVec.eq_of_getLsbD_eq; intro i hi
  simp only [wordOfBytes, lowByte, BitVec.getLsbD_extractLsb', BitVec.getLsbD_append]
  interval_cases i <;> rfl

/-- Decoding the bytes of a word is decoding the word. -/
theorem decode_bytes (w : Word) {i : Instr} (h : decodeWord w = some i) : decode (highByte w) (lowByte w) = .op i := by
  simp [decode, h]

/-! ### Format A -/

@[simp] theorem opField_wordA (op : Nibble) (nnn : Addr12) : opField (wordA op nnn) = op := by
  apply BitVec.eq_of_getLsbD_eq; intro i hi
  simp only [wordA, opField, BitVec.getLsbD_extractLsb', BitVec.getLsbD_append]
  interval_cases i <;> rfl

@[simp] theorem nnnField_wordA (op : Nibble) (nnn : Addr12) : nnnField (wordA op nnn) = nnn := by
  apply BitVec.eq_of_getLsbD_eq; intro i hi
  simp only [wordA, nnnField, BitVec.getLsbD_extractLsb', BitVec.getLsbD_append]
  interval_cases i <;> rfl

theorem wordA_fields (w : Word) : wordA (opField w) (nnnField w) = w := by
  apply BitVec.eq_of_getLsbD_eq; intro i hi
  simp only [wordA, opField, nnnField, BitVec.getLsbD_extractLsb', BitVec.getLsbD_append]
  interval_cases i <;> rfl

/-! ### Formats XK and X -/

@[simp] theorem opField_wordXK (op : Nibble) (x : Reg) (kk : Byte) : opField (wordXK op x kk) = op := by
  apply BitVec.eq_of_getLsbD_eq; intro i hi
  simp only [wordXK, opField, BitVec.getLsbD_extractLsb', BitVec.getLsbD_append]
  interval_cases i <;> rfl

theorem xBits_wordXK (op : Nibble) (x : Reg) (kk : Byte) : (wordXK op x kk).extractLsb' 8 4 = bitsOfReg x := by
  apply BitVec.eq_of_getLsbD_eq; intro i hi
  simp only [wordXK, BitVec.getLsbD_extractLsb', BitVec.getLsbD_append]
  interval_cases i <;> rfl

@[simp] theorem xField_wordXK (op : Nibble) (x : Reg) (kk : Byte) : xField (wordXK op x kk) = x := by
  rw [xField, xBits_wordXK, regOfBits_bitsOfReg]

@[simp] theorem kkField_wordXK (op : Nibble) (x : Reg) (kk : Byte) : kkField (wordXK op x kk) = kk := by
  apply BitVec.eq_of_getLsbD_eq; intro i hi
  simp only [wordXK, kkField, BitVec.getLsbD_extractLsb', BitVec.getLsbD_append]
  interval_cases i <;> rfl

theorem wordXK_fields (w : Word) : wordXK (opField w) (xField w) (kkField w) = w := by
  apply BitVec.eq_of_getLsbD_eq; intro i hi
  simp only [wordXK, xField, bitsOfReg_regOfBits, opField, kkField, BitVec.getLsbD_extractLsb', BitVec.getLsbD_append]
  interval_cases i <;> rfl

/-! ### Formats XYN and XY -/

@[simp] theorem opField_wordXYN (op : Nibble) (x y : Reg) (n : Nibble) : opField (wordXYN op x y n) = op := by
  apply BitVec.eq_of_getLsbD_eq; intro i hi
  simp only [wordXYN, opField, BitVec.getLsbD_extractLsb', BitVec.getLsbD_append]
  interval_cases i <;> rfl

theorem xBits_wordXYN (op : Nibble) (x y : Reg) (n : Nibble) : (wordXYN op x y n).extractLsb' 8 4 = bitsOfReg x := by
  apply BitVec.eq_of_getLsbD_eq; intro i hi
  simp only [wordXYN, BitVec.getLsbD_extractLsb', BitVec.getLsbD_append]
  interval_cases i <;> rfl

theorem yBits_wordXYN (op : Nibble) (x y : Reg) (n : Nibble) : (wordXYN op x y n).extractLsb' 4 4 = bitsOfReg y := by
  apply BitVec.eq_of_getLsbD_eq; intro i hi
  simp only [wordXYN, BitVec.getLsbD_extractLsb', BitVec.getLsbD_append]
  interval_cases i <;> rfl

@[simp] theorem xField_wordXYN (op : Nibble) (x y : Reg) (n : Nibble) : xField (wordXYN op x y n) = x := by
  rw [xField, xBits_wordXYN, regOfBits_bitsOfReg]

@[simp] theorem yField_wordXYN (op : Nibble) (x y : Reg) (n : Nibble) : yField (wordXYN op x y n) = y := by
  rw [yField, yBits_wordXYN, regOfBits_bitsOfReg]

@[simp] theorem nField_wordXYN (op : Nibble) (x y : Reg) (n : Nibble) : nField (wordXYN op x y n) = n := by
  apply BitVec.eq_of_getLsbD_eq; intro i hi
  simp only [wordXYN, nField, BitVec.getLsbD_extractLsb', BitVec.getLsbD_append]
  interval_cases i <;> rfl

theorem wordXYN_fields (w : Word) : wordXYN (opField w) (xField w) (yField w) (nField w) = w := by
  apply BitVec.eq_of_getLsbD_eq; intro i hi
  simp only [wordXYN, xField, yField, bitsOfReg_regOfBits, opField, nField, BitVec.getLsbD_extractLsb', BitVec.getLsbD_append]
  interval_cases i <;> rfl

/-! ### The fixed bits of a format -/

theorem wordA_fixed (op : Nibble) (nnn : Addr12) : wordA op nnn &&& 0xF000#16 = wordA op 0 := by
  apply BitVec.eq_of_getLsbD_eq; intro i hi
  simp only [wordA, BitVec.getLsbD_and, BitVec.getLsbD_append]
  interval_cases i <;> simp

theorem wordXK_fixed_op (op : Nibble) (x : Reg) (kk : Byte) : wordXK op x kk &&& 0xF000#16 = wordXK op 0 0 := by
  apply BitVec.eq_of_getLsbD_eq; intro i hi
  simp only [wordXK, BitVec.getLsbD_and, BitVec.getLsbD_append]
  interval_cases i <;> simp [bitsOfReg]

theorem wordXK_fixed (op : Nibble) (x : Reg) (kk : Byte) : wordXK op x kk &&& 0xF0FF#16 = wordXK op 0 kk := by
  apply BitVec.eq_of_getLsbD_eq; intro i hi
  simp only [wordXK, BitVec.getLsbD_and, BitVec.getLsbD_append]
  interval_cases i <;> simp [bitsOfReg]

theorem wordXYN_fixed_op (op : Nibble) (x y : Reg) (n : Nibble) : wordXYN op x y n &&& 0xF000#16 = wordXYN op 0 0 0 := by
  apply BitVec.eq_of_getLsbD_eq; intro i hi
  simp only [wordXYN, BitVec.getLsbD_and, BitVec.getLsbD_append]
  interval_cases i <;> simp [bitsOfReg]

theorem wordXYN_fixed (op : Nibble) (x y : Reg) (n : Nibble) : wordXYN op x y n &&& 0xF00F#16 = wordXYN op 0 0 n := by
  apply BitVec.eq_of_getLsbD_eq; intro i hi
  simp only [wordXYN, BitVec.getLsbD_and, BitVec.getLsbD_append]
  interval_cases i <;> simp [bitsOfReg]

end Sys2Proof
end

