-- ==== Sys2Proof/Laws/PerInstr.lean ====
section
/-! SUPPORT. Families of statements about every instruction as syntax, one lemma for each constructor.

`FixedBits`: the encoder sets the fixed bits of the instruction's row of spec/opcode_table.json to the row's match (30_encoding.md R75). -/

/-- The word of an instruction agrees with its row's match on its row's mask. -/
def Sys2Proof.Laws.FixedBits.Statement (i : Sys2Proof.Instr) : Prop :=
  Sys2Proof.encode i &&& Sys2Proof.tableMask i = Sys2Proof.tableMatch i

namespace Sys2Proof.Laws

theorem FixedBits.clear : FixedBits.Statement .clear := rfl
theorem FixedBits.ret : FixedBits.Statement .ret := rfl

theorem FixedBits.call (addr : Addr12) : FixedBits.Statement (.call addr) := wordA_fixed _ addr
theorem FixedBits.goto (addr : Addr12) : FixedBits.Statement (.goto addr) := wordA_fixed _ addr
theorem FixedBits.callFunction (addr : Addr12) : FixedBits.Statement (.callFunction addr) := wordA_fixed _ addr
theorem FixedBits.setAddressReg (addr : Addr12) : FixedBits.Statement (.setAddressReg addr) := wordA_fixed _ addr
theorem FixedBits.jumpOffset (addr : Addr12) : FixedBits.Statement (.jumpOffset addr) := wordA_fixed _ addr

theorem FixedBits.skipEq (reg : Reg) (k : Byte) : FixedBits.Statement (.skipEq reg k) := wordXK_fixed_op _ reg k
theorem FixedBits.skipNEq (reg : Reg) (k : Byte) : FixedBits.Statement (.skipNEq reg k) := wordXK_fixed_op _ reg k
theorem FixedBits.set (reg : Reg) (k : Byte) : FixedBits.Statement (.set reg k) := wordXK_fixed_op _ reg k
theorem FixedBits.addAssign (reg : Reg) (k : Byte) : FixedBits.Statement (.addAssign reg k) := wordXK_fixed_op _ reg k
theorem FixedBits.setRand (reg : Reg) (k : Byte) : FixedBits.Statement (.setRand reg k) := wordXK_fixed_op _ reg k

theorem FixedBits.skipEqReg (a b : Reg) : FixedBits.Statement (.skipEqReg a b) := wordXYN_fixed _ a b _
theorem FixedBits.copy (a b : Reg) : FixedBits.Statement (.copy a b) := wordXYN_fixed _ a b _
theorem FixedBits.or (a b : Reg) : FixedBits.Statement (.or a b) := wordXYN_fixed _ a b _
theorem FixedBits.and (a b : Reg) : FixedBits.Statement (.and a b) := wordXYN_fixed _ a b _
theorem FixedBits.xor (a b : Reg) : FixedBits.Statement (.xor a b) := wordXYN_fixed _ a b _
theorem FixedBits.addAssignReg (a b : Reg) : FixedBits.Statement (.addAssignReg a b) := wordXYN_fixed _ a b _
theorem FixedBits.subAssignReg (a b : Reg) : FixedBits.Statement (.subAssignReg a b) := wordXYN_fixed _ a b _
theorem FixedBits.shiftRight (a b : Reg) : FixedBits.Statement (.shiftRight a b) := wordXYN_fixed _ a b _
theorem FixedBits.subtract (a b : Reg) : FixedBits.Statement (.subtract a b) := wordXYN_fixed _ a b _
theorem FixedBits.shiftLeft (a b : Reg) : FixedBits.Statement (.shiftLeft a b) := wordXYN_fixed _ a b _
theorem FixedBits.skipNEqReg (a b : Reg) : FixedBits.Statement (.skipNEqReg a b) := wordXYN_fixed _ a b _

theorem FixedBits.draw (a b : Reg) (k : Nibble) : FixedBits.Statement (.draw a b k) := wordXYN_fixed_op _ a b k

theorem FixedBits.skipKeyPress (reg : Reg) : FixedBits.Statement (.skipKeyPress reg) := wordXK_fixed _ reg _
theorem FixedBits.skipNoKeyPress (reg : Reg) : FixedBits.Statement (.skipNoKeyPress reg) := wordXK_fixed _ reg _
theorem FixedBits.storeDelayTimer (reg : Reg) : FixedBits.Statement (.storeDelayTimer reg) := wordXK_fixed _ reg _
theorem FixedBits.storeKeypress (reg : Reg) : FixedBits.Statement (.storeKeypress reg) := wordXK_fixed _ reg _
theorem FixedBits.setDelayTimer (reg : Reg) : FixedBits.Statement (.setDelayTimer reg) := wordXK_fixed _ reg _
theorem FixedBits.setSoundTimer (reg : Reg) : FixedBits.Statement (.setSoundTimer reg) := wordXK_fixed _ reg _
theorem FixedBits.incrementAddressReg (reg : Reg) : FixedBits.Statement (.incrementAddressReg reg) := wordXK_fixed _ reg _
theorem FixedBits.storeSpriteAddress (reg : Reg) : FixedBits.Statement (.storeSpriteAddress reg) := wordXK_fixed _ reg _
theorem FixedBits.binaryCodedDecimal (reg : Reg) : FixedBits.Statement (.binaryCodedDecimal reg) := wordXK_fixed _ reg _
theorem FixedBits.dump (reg : Reg) : FixedBits.Statement (.dump reg) := wordXK_fixed _ reg _
theorem FixedBits.load (reg : Reg) : FixedBits.Statement (.load reg) := wordXK_fixed _ reg _

end Sys2Proof.Laws
end

