-- ==== Sys2Proof/Machine/Assembly.lean ====
section
/-! DEFINITION. Assembly text (30_encoding.md R80, R81): notation only, with no effect on behaviour (log 15, safe). -/

namespace Sys2Proof.Machine

/-- The digit of a number below 16. -/
def hexDigit (n : Nat) : String :=
  match n with
  | 0 => "0" | 1 => "1" | 2 => "2" | 3 => "3" | 4 => "4" | 5 => "5" | 6 => "6" | 7 => "7"
  | 8 => "8" | 9 => "9" | 10 => "A" | 11 => "B" | 12 => "C" | 13 => "D" | 14 => "E" | _ => "F"

/-- A 16-bit value in four hexadecimal digits. -/
def hex4 (n : Nat) : String := hexDigit (n / 4096 % 16) ++ hexDigit (n / 256 % 16) ++ hexDigit (n / 16 % 16) ++ hexDigit (n % 16)

/-- A value below 4096 in hexadecimal with `0x` and no leading zeros. -/
def hexAddr (n : Nat) : String :=
  "0x" ++ (if n < 16 then hexDigit n else if n < 256 then hexDigit (n / 16) ++ hexDigit (n % 16)
    else hexDigit (n / 256) ++ hexDigit (n / 16 % 16) ++ hexDigit (n % 16))

/-- A value below 1000 in decimal. -/
def decText (n : Nat) : String :=
  if n < 10 then hexDigit n else if n < 100 then hexDigit (n / 10) ++ hexDigit (n % 10)
  else hexDigit (n / 100) ++ hexDigit (n / 10 % 10) ++ hexDigit (n % 10)

/-- An opcode's name and one operand. -/
def asm1 (name a : String) : String := name ++ "(" ++ a ++ ")"

/-- An opcode's name and two operands. -/
def asm2 (name a b : String) : String := name ++ "(" ++ a ++ ", " ++ b ++ ")"

def regText (r : Reg) : String := decText r.val
def addrText (a : Addr12) : String := hexAddr a.toNat

/-- The source's own spelling of an instruction (R80). -/
def asmText : Instr → String
  | .clear => "Clear"
  | .ret => "Return"
  | .call a => asm1 "Call" (addrText a)
  | .goto a => asm1 "Goto" (addrText a)
  | .callFunction a => asm1 "CallFunction" (addrText a)
  | .skipEq r k => asm2 "SkipEq" (regText r) (decText k.toNat)
  | .skipNEq r k => asm2 "SkipNEq" (regText r) (decText k.toNat)
  | .skipEqReg a b => asm2 "SkipEqReg" (regText a) (regText b)
  | .set r k => asm2 "Set" (regText r) (decText k.toNat)
  | .addAssign r k => asm2 "AddAssign" (regText r) (decText k.toNat)
  | .copy a b => asm2 "Copy" (regText a) (regText b)
  | .or a b => asm2 "Or" (regText a) (regText b)
  | .and a b => asm2 "And" (regText a) (regText b)
  | .xor a b => asm2 "Xor" (regText a) (regText b)
  | .addAssignReg a b => asm2 "AddAssignReg" (regText a) (regText b)
  | .subAssignReg a b => asm2 "SubAssignReg" (regText a) (regText b)
  | .shiftRight a b => asm2 "ShiftRight" (regText a) (regText b)
  | .subtract a b => asm2 "Subtract" (regText a) (regText b)
  | .shiftLeft a b => asm2 "ShiftLeft" (regText a) (regText b)
  | .skipNEqReg a b => asm2 "SkipNEqReg" (regText a) (regText b)
  | .setAddressReg a => asm1 "SetAddressReg" (addrText a)
  | .jumpOffset _ => asm1 "JumpOffset" "_"
  | .setRand r k => asm2 "SetRand" (regText r) (decText k.toNat)
  | .draw a b k => asm2 "Draw" (regText a) (regText b ++ ", " ++ decText k.toNat)
  | .skipKeyPress r => asm1 "SkipKeyPress" (regText r)
  | .skipNoKeyPress r => asm1 "SkipNoKeyPress" (regText r)
  | .storeDelayTimer r => asm1 "StoreDelayTimer" (regText r)
  | .storeKeypress r => asm1 "StoreKeypress" (regText r)
  | .setDelayTimer r => asm1 "SetDelayTimer" (regText r)
  | .setSoundTimer r => asm1 "SetSoundTimer" (regText r)
  | .incrementAddressReg r => asm1 "IncrementAddressReg" (regText r)
  | .storeSpriteAddress r => asm1 "StoreSpriteAddress" (regText r)
  | .binaryCodedDecimal r => asm1 "BinaryCodedDecimal" (regText r)
  | .dump r => asm1 "Dump" (regText r)
  | .load r => asm1 "Load" (regText r)

/-- A data word in a listing is `Data(0xBBBB)` (R81). -/
def asmDecoded : Decoded → String
  | .op i => asmText i
  | .data b0 b1 => asm1 "Data" ("0x" ++ hex4 (b0.toNat * 256 + b1.toNat))

/-- A register's conventional name, `V0` to `VF` (00_scope.md R12). -/
def vText (r : Reg) : String := "V" ++ hexDigit r.val

/-- The conventional alias of an instruction (R80); it names the encoding only. -/
def chip8Text : Instr → String
  | .clear => "CLS"
  | .ret => "RET"
  | .call a => "SYS " ++ addrText a
  | .goto a => "JP " ++ addrText a
  | .callFunction a => "CALL " ++ addrText a
  | .skipEq r k => "SE " ++ vText r ++ ", " ++ decText k.toNat
  | .skipNEq r k => "SNE " ++ vText r ++ ", " ++ decText k.toNat
  | .skipEqReg a b => "SE " ++ vText a ++ ", " ++ vText b
  | .set r k => "LD " ++ vText r ++ ", " ++ decText k.toNat
  | .addAssign r k => "ADD " ++ vText r ++ ", " ++ decText k.toNat
  | .copy a b => "LD " ++ vText a ++ ", " ++ vText b
  | .or a b => "OR " ++ vText a ++ ", " ++ vText b
  | .and a b => "AND " ++ vText a ++ ", " ++ vText b
  | .xor a b => "XOR " ++ vText a ++ ", " ++ vText b
  | .addAssignReg a b => "ADD " ++ vText a ++ ", " ++ vText b
  | .subAssignReg a b => "SUB " ++ vText a ++ ", " ++ vText b
  | .shiftRight a b => "SHR " ++ vText a ++ ", " ++ vText b
  | .subtract a b => "SUBN " ++ vText a ++ ", " ++ vText b
  | .shiftLeft a b => "SHL " ++ vText a ++ ", " ++ vText b
  | .skipNEqReg a b => "SNE " ++ vText a ++ ", " ++ vText b
  | .setAddressReg a => "LD I, " ++ addrText a
  | .jumpOffset a => "JP V0, " ++ addrText a
  | .setRand r k => "RND " ++ vText r ++ ", " ++ decText k.toNat
  | .draw a b k => "DRW " ++ vText a ++ ", " ++ vText b ++ ", " ++ decText k.toNat
  | .skipKeyPress r => "SKP " ++ vText r
  | .skipNoKeyPress r => "SKNP " ++ vText r
  | .storeDelayTimer r => "LD " ++ vText r ++ ", DT"
  | .storeKeypress r => "LD " ++ vText r ++ ", K"
  | .setDelayTimer r => "LD DT, " ++ vText r
  | .setSoundTimer r => "LD ST, " ++ vText r
  | .incrementAddressReg r => "ADD I, " ++ vText r
  | .storeSpriteAddress r => "LD F, " ++ vText r
  | .binaryCodedDecimal r => "LD B, " ++ vText r
  | .dump r => "LD [I], " ++ vText r
  | .load r => "LD " ++ vText r ++ ", [I]"

end Sys2Proof.Machine
end

