-- ==== Sys2Proof/Tests/Slice0.lean ====
section
/-! SUPPORT. Tests of single instructions against the vectors of spec/95_test_vectors.md (their ids stand in the comments), the words of
30_encoding.md R75 written out, and for each obligation with hypotheses a witness that meets them. -/

namespace Sys2Proof.Tests

open Sys2Proof.Machine

/-! ### Helpers -/

/-- The next state of an answer. -/
def nextOf (answer : Answer) : Option State :=
  match answer with
  | .next s => some s
  | .fault _ => none
  | .refused _ => none

/-- A register written. -/
def reg (r : Reg) (v : Byte) (s : State) : State := writeReg r v s

/-- The time source's readings of the coming cycles. -/
def inject (readings : List Nat) (s : State) : State := setClock { s.clock with injected := readings } s

/-- Only LEGACY_DUMP_LOAD set. -/
def dumpLoadSet : Legacy := { hardwareLegacy with dumpLoad := true }

/-- Only LEGACY_COARSE_TIMER set. -/
def coarseSet : Legacy := { hardwareLegacy with coarseTimer := true }

/-- A halted engine. -/
def haltedState : State := raiseFault .memRange 0xFFF#16 (setDt 5 State.reset)

/-- The reset state with a call stack of `n` entries. -/
def deep (n : Nat) : State := setStack (List.replicate n 0x200#16) State.reset

/-- What a test looks at after an instruction: one register, the flag register, `pc`. -/
def seen (r : Reg) (answer : Answer) : Option (Byte × Byte × Word) :=
  (nextOf answer).map fun t => (readReg r t, readReg 15 t, t.pc)

/-- One step with the instruction word `w` at `pc`. -/
def stepWord (w : Nat) (s : State) : Answer := step (s.withFetchWord 16 w)

/-! ### WellFormed smoke: the one check refuses the two words of rows 1 and 2 (R75, R120) -/

theorem test_wf_refuses_call_0E0 : (Instr.call 0x0E0#12).wf = false := by decide
theorem test_wf_refuses_call_0EE : (Instr.call 0x0EE#12).wf = false := by decide
theorem test_wf_admits_call_neighbours : (Instr.call 0x0E1#12).wf = true ∧ (Instr.call 0x0EF#12).wf = true := by decide

/-! ### Decoding: the words of R75, row by row -/

/-- Rows 1 to 5 and 22, each from its bits. -/
theorem test_decode_control :
    decodeTableWord 16 0b0000000000001110 = some (.call 0x00E#12) ∧
    decodeTableWord 16 0b0000000011101110 = some .ret ∧
    decodeTableWord 16 0b0001101010111100 = some (.goto 0xABC#12) ∧
    decodeTableWord 16 0b0010101010111100 = some (.callFunction 0xABC#12) ∧
    decodeTableWord 16 0b1011000100100011 = some (.jumpOffset 0x123#12) := by decide

/-- Rows 6 to 8 and 20. -/
theorem test_decode_skips :
    decodeTableWord 16 0b0011001000000111 = some (.skipEq 2 0x07#8) ∧
    decodeTableWord 16 0x4207 = some (.skipNEq 2 0x07#8) ∧
    decodeTableWord 16 0x5130 = some (.skipEqReg 1 3) ∧
    decodeTableWord 16 0x9130 = some (.skipNEqReg 1 3) := by decide

/-- Rows 9 to 14. -/
theorem test_decode_alu :
    decodeTableWord 16 0b0110000000101010 = some (.set 0 0x2A#8) ∧
    decodeTableWord 16 0x7320 = some (.addAssign 3 0x20#8) ∧
    decodeTableWord 16 0b1000000101010000 = some (.copy 1 5) ∧
    decodeTableWord 16 0x8011 = some (.or 0 1) ∧
    decodeTableWord 16 0x8012 = some (.and 0 1) ∧
    decodeTableWord 16 0x8443 = some (.xor 4 4) := by decide

/-- Rows 15 to 19. -/
theorem test_decode_flag_writers :
    decodeTableWord 16 0x8F14 = some (.addAssignReg 15 1) ∧
    decodeTableWord 16 0x8015 = some (.subAssignReg 0 1) ∧
    decodeTableWord 16 0x8F16 = some (.shiftRight 15 1) ∧
    decodeTableWord 16 0x8017 = some (.subtract 0 1) ∧
    decodeTableWord 16 0b1000000000011110 = some (.shiftLeft 0 1) := by decide

/-- Rows 21, 31, 34 and 35. -/
theorem test_decode_address_memory :
    decodeTableWord 16 0b1010001100000000 = some (.setAddressReg 0x300#12) ∧
    decodeTableWord 16 0xF21E = some (.incrementAddressReg 2) ∧
    decodeTableWord 16 0b1111001001010101 = some (.dump 2) ∧
    decodeTableWord 16 0xF165 = some (.load 1) := by decide

/-- Rows 27, 29 and 30. -/
theorem test_decode_timers :
    decodeTableWord 16 0b1111001100000111 = some (.storeDelayTimer 3) ∧
    decodeTableWord 16 0xF015 = some (.setDelayTimer 0) ∧
    decodeTableWord 16 0xF418 = some (.setSoundTimer 4) := by decide

/-- Rows 1, 23 to 26, 28, 32 and 33. -/
theorem test_decode_device :
    decodeTableWord 16 0b0000000011100000 = some .clear ∧
    decodeTableWord 16 0xC1FF = some (.setRand 1 0xFF#8) ∧
    decodeTableWord 16 0b1101000000010101 = some (.draw 0 1 0x5#4) ∧
    decodeTableWord 16 0xE29E = some (.skipKeyPress 2) ∧
    decodeTableWord 16 0xE2A1 = some (.skipNoKeyPress 2) ∧
    decodeTableWord 16 0xF30A = some (.storeKeypress 3) ∧
    decodeTableWord 16 0xF129 = some (.storeSpriteAddress 1) ∧
    decodeTableWord 16 0xF033 = some (.binaryCodedDecimal 0) := by decide

/-- R76: data words, and their neighbours that are instructions. -/
theorem test_decode_data_words :
    decode 0x51#8 0x21#8 = .data 0x51#8 0x21#8 ∧ decode 0x80#8 0x18#8 = .data 0x80#8 0x18#8 ∧
    decode 0x91#8 0x21#8 = .data 0x91#8 0x21#8 ∧ decode 0xE0#8 0x00#8 = .data 0xE0#8 0x00#8 ∧
    decode 0xF0#8 0xFF#8 = .data 0xF0#8 0xFF#8 ∧ decode 0x80#8 0x1E#8 = .op (.shiftLeft 0 1) := by decide

/-- The first byte in memory is the high byte (R52, R71). -/
theorem test_decode_byte_order : decode 0x12#8 0x34#8 = .op (.goto 0x234#12) := by decide

/-! ### Control transfer -/

/-- CT1. -/
theorem test_call : (nextOf (stepWord 0x0123 State.reset)).map (fun t => (t.pc, t.stack)) = some (0x202#16, []) := by decide

/-- CT4. -/
theorem test_return_pops : (nextOf (exec .ret (setStack [0x200#16, 0x250#16] (setPc 0x300#16 State.reset)))).map
    (fun t => (t.pc, t.stack)) = some (0x252#16, [0x200#16]) := by decide

/-- CT5, S8. -/
theorem test_return_empty : (nextOf (stepWord 0x00EE State.reset)).map (fun t => (t.pc, t.stack, t.ports.diag)) =
    some (0x202#16, [], some (.emptyReturn 0x200#16)) := by decide

/-- CT6. -/
theorem test_goto : (nextOf (stepWord 0x1ABC State.reset)).map (·.pc) = some 0xABC#16 := by decide

/-- CT8. -/
theorem test_callFunction : (nextOf (stepWord 0x2ABC State.reset)).map (fun t => (t.pc, t.stack)) =
    some (0xABC#16, [0x200#16]) := by decide

/-- CT10. -/
theorem test_callFunction_full : (nextOf (stepWord 0x2300 (deep 24))).map (fun t => (t.pc, t.stack.length, t.fault)) =
    some (0x200#16, 24, { valid := true, cause := .stackOverflow, pc := 0x200#16, info := 0x300#16 }) := by decide

/-- CT11, CT12. -/
theorem test_skipEq : (nextOf (stepWord 0x3207 (reg 2 7 State.reset))).map (·.pc) = some 0x204#16 ∧
    (nextOf (stepWord 0x3207 (reg 2 6 State.reset))).map (·.pc) = some 0x202#16 := by decide

/-- CT13, CT14. -/
theorem test_skipNEq : (nextOf (stepWord 0x4207 (reg 2 7 State.reset))).map (·.pc) = some 0x202#16 ∧
    (nextOf (stepWord 0x4207 (reg 2 6 State.reset))).map (·.pc) = some 0x204#16 := by decide

/-- CT15, CT16. -/
theorem test_skipEqReg : (nextOf (stepWord 0x5130 (reg 1 9 (reg 3 9 State.reset)))).map (·.pc) = some 0x204#16 ∧
    (nextOf (stepWord 0x5130 (reg 1 9 (reg 3 8 State.reset)))).map (·.pc) = some 0x202#16 := by decide

/-- CT18, CT19. -/
theorem test_skipNEqReg : (nextOf (stepWord 0x9130 (reg 1 9 (reg 3 8 State.reset)))).map (·.pc) = some 0x204#16 ∧
    (nextOf (stepWord 0x9110 (reg 1 9 State.reset))).map (·.pc) = some 0x202#16 := by decide

/-- CT20. -/
theorem test_jumpOffset : (nextOf (stepWord 0xB123 (setAr 0x300#16 (reg 0 4 State.reset)))).map (·.pc) = some 0x304#16 := by decide

/-- CT21. -/
theorem test_jumpOffset_wraps :
    (nextOf (stepWord 0xB000 (setAr 0xFFFF#16 (reg 0 3 State.reset)))).map (·.pc) = some 0x0002#16 := by decide

/-! ### Register file and ALU -/

/-- AL1. -/
theorem test_set : seen 0 (stepWord 0x602A State.reset) = some (0x2A#8, 0#8, 0x202#16) := by decide

/-- AL3. -/
theorem test_addAssign : seen 3 (stepWord 0x7320 (reg 3 0xF0 State.reset)) = some (0x10#8, 0#8, 0x202#16) := by decide

/-- AL5. -/
theorem test_addAssign_legacy :
    seen 3 (exec (.addAssign 3 0x20#8) (setLegacy { hardwareLegacy with addAssign := true } (reg 3 0xF0 State.reset))) =
      some (0x23#8, 0#8, 0x202#16) := by decide

/-- AL6. -/
theorem test_copy : seen 1 (stepWord 0x8150 (reg 5 0x42 State.reset)) = some (0x42#8, 0#8, 0x202#16) := by decide

/-- AL7: the flag register keeps its value. -/
theorem test_or : seen 0 (stepWord 0x8011 (reg 0 0xF0 (reg 1 0x0F (reg 15 1 State.reset)))) =
    some (0xFF#8, 1#8, 0x202#16) := by decide

/-- AL8. -/
theorem test_and : seen 0 (stepWord 0x8012 (reg 0 0xF0 (reg 1 0x3C State.reset))) = some (0x30#8, 0#8, 0x202#16) := by decide

/-- AL9. -/
theorem test_xor : seen 0 (stepWord 0x8013 (reg 0 0xF0 (reg 1 0x3C State.reset))) = some (0xCC#8, 0#8, 0x202#16) := by decide

/-- AL12. -/
theorem test_addAssignReg : seen 0 (stepWord 0x8014 (reg 0 250 (reg 1 10 State.reset))) = some (4#8, 1#8, 0x202#16) := by decide

/-- AL15: the flag wins over the sum. -/
theorem test_addAssignReg_into_flag :
    seen 15 (stepWord 0x8F14 (reg 15 200 (reg 1 100 State.reset))) = some (1#8, 1#8, 0x202#16) := by decide

/-- AL17. -/
theorem test_subAssignReg : seen 0 (stepWord 0x8015 (reg 0 5 (reg 1 7 State.reset))) = some (0xFE#8, 1#8, 0x202#16) := by decide

/-- AL19: equal operands do not borrow. -/
theorem test_subAssignReg_equal :
    seen 0 (stepWord 0x8015 (reg 0 7 (reg 1 7 (reg 15 9 State.reset)))) = some (0#8, 0#8, 0x202#16) := by decide

/-- AL21. -/
theorem test_subtract : seen 0 (stepWord 0x8017 (reg 0 5 (reg 1 7 State.reset))) = some (2#8, 0#8, 0x202#16) := by decide

/-- AL22. -/
theorem test_subtract_borrows : seen 0 (stepWord 0x8017 (reg 0 7 (reg 1 5 State.reset))) = some (0xFE#8, 1#8, 0x202#16) := by decide

/-- AL24: both registers take the result. -/
theorem test_shiftRight : seen 0 (stepWord 0x8016 (reg 1 5 State.reset)) = some (2#8, 1#8, 0x202#16) ∧
    seen 1 (stepWord 0x8016 (reg 1 5 State.reset)) = some (2#8, 1#8, 0x202#16) := by decide

/-- AL26. -/
theorem test_shiftRight_into_flag : seen 1 (stepWord 0x8F16 (reg 1 5 State.reset)) = some (2#8, 1#8, 0x202#16) := by decide

/-- AL28. -/
theorem test_shiftLeft : seen 0 (stepWord 0x801E (reg 1 0x81 State.reset)) = some (2#8, 1#8, 0x202#16) ∧
    seen 1 (stepWord 0x801E (reg 1 0x81 State.reset)) = some (2#8, 1#8, 0x202#16) := by decide

/-- AL30, AL31. -/
theorem test_shiftLeft_legacy :
    seen 1 (exec (.shiftLeft 0 1) (setLegacy { hardwareLegacy with shlMask := true } (reg 1 0x88 State.reset))) =
      some (0x10#8, 8#8, 0x202#16) ∧
    seen 1 (exec (.shiftLeft 0 1) (setLegacy { hardwareLegacy with shlMask := true } (reg 1 0x80 State.reset))) =
      some (0#8, 0#8, 0x202#16) := by decide

/-! ### Address register, Dump and Load -/

/-- AM1. -/
theorem test_setAddressReg : (nextOf (stepWord 0xA300 State.reset)).map (·.ar) = some 0x300#16 := by decide

/-- AM3. -/
theorem test_incrementAddressReg_wraps :
    (nextOf (stepWord 0xF01E (setAr 0xFFFF#16 (reg 0 1 State.reset)))).map (fun t => (t.ar, readReg 15 t)) =
      some (0#16, 0#8) := by decide

/-- AM4. -/
theorem test_dump :
    (nextOf (exec (.dump 2) (setAr 0x300#16 (reg 0 0x11 (reg 1 0x22 (reg 2 0x33 State.reset)))))).map (fun t => (t.mem, t.ar)) =
      some ([(0x300, 0x11#8), (0x301, 0x22#8), (0x302, 0x33#8)], 0x303#16) := by decide

/-- AM6: no byte is written. -/
theorem test_dump_out_of_range : (nextOf (exec (.dump 1) (setAr 0xFFF#16 (reg 0 0x5A State.reset)))).map
      (fun t => (t.mem, t.ar, t.pc, t.fault)) =
    some ([], 0xFFF#16, 0x200#16, { valid := true, cause := .memRange, pc := 0x200#16, info := 0xFFF#16 }) := by decide

/-- AM8. -/
theorem test_load :
    (nextOf (exec (.load 1) (setAr 0x300#16 (writeByte 0x301 0x22 (writeByte 0x300 0x11 (reg 2 9 State.reset)))))).map
      (fun t => (readReg 0 t, readReg 1 t, readReg 2 t, t.ar)) = some (0x11#8, 0x22#8, 9#8, 0x302#16) := by decide

/-- AM10. -/
theorem test_load_out_of_range : (nextOf (exec (.load 15) (setAr 0xFF8#16 State.reset))).map (fun t => (t.ar, t.fault.cause)) =
    some (0xFF8#16, .memRange) := by decide

/-- AM11 and AM12. -/
theorem test_dump_legacy :
    (nextOf (exec (.dump 1) (setLegacy dumpLoadSet (setAr 8#16 (reg 0 0xAA (reg 1 0xBB State.reset)))))).map
      (fun t => (readReg 8 t, readReg 9 t, t.ar, t.mem)) = some (0xAA#8, 0xBB#8, 10#16, []) ∧
    (nextOf (exec (.dump 1) (setLegacy dumpLoadSet (setAr 0xF#16 State.reset)))).map (fun t => (t.ar, t.fault.cause)) =
      some (0xF#16, .legacyIndexRange) := by decide

/-- AM13. -/
theorem test_load_legacy :
    (nextOf (exec (.load 1) (setLegacy dumpLoadSet (setAr 8#16 (reg 8 0xAA (reg 9 0xBB State.reset)))))).map
      (fun t => (readReg 0 t, readReg 1 t, t.ar)) = some (0xAA#8, 0xBB#8, 10#16) := by decide

/-! ### Timers -/

/-- TM2: `dt` is read before the decay. -/
theorem test_storeDelayTimer : (nextOf (stepWord 0xF307 (inject [5] (setDt 0x3C State.reset)))).map
    (fun t => (readReg 3 t, t.dt)) = some (0x3C#8, 0x37#8) := by decide

/-- TM4: the new value decays in its own cycle. -/
theorem test_setDelayTimer : (nextOf (stepWord 0xF015 (inject [2] (reg 0 5 State.reset)))).map (·.dt) = some 3#8 := by decide

/-- TM5. -/
theorem test_setSoundTimer : (nextOf (stepWord 0xF418 (inject [0] (reg 4 0x10 State.reset)))).map (fun t => (t.st, t.dt)) =
    some (0x10#8, 0#8) := by decide

/-- TM6, TM7, TM8. -/
theorem test_decay : (timerDecay 5 (setDt 3 (setSt 10 State.reset))).dt = 0#8 ∧
    (timerDecay 5 (setDt 3 (setSt 10 State.reset))).st = 5#8 ∧ (timerDecay 300 (setDt 255 State.reset)).dt = 0#8 ∧
    (timerDecay 0 (setDt 7 State.reset)).dt = 7#8 := by decide

/-- R241: three pulses between cycles and two in the cycle take 5, and the counter is cleared. -/
theorem test_ticks : (nextOf (stepWord 0x0123 (tick (tick (tick (inject [2] (setDt 9 State.reset))))))).map
    (fun t => (t.dt, t.clock.pendingTicks)) = some (4#8, 0#8) := by decide

/-- R242: 61 seconds take 1, and the reference moves. -/
theorem test_coarse_timer : (nextOf (stepWord 0x0123 (setLegacy coarseSet (inject [61] (setDt 9 State.reset))))).map
    (fun t => (t.dt, t.clock.lastSample)) = some (8#8, 61) := by decide

/-- TM9: a cycle that faults does not decay. -/
theorem test_no_decay_on_fault : (nextOf (stepWord 0x2300 (inject [3] (setDt 5 (deep 24))))).map
    (fun t => (t.dt, halted t)) = some (5#8, true) := by decide

/-! ### Device opcodes -/

/-- DV1. -/
theorem test_clear : (nextOf (stepWord 0x00E0 State.reset)).map (fun t => (t.pc, t.ports.intent)) =
    some (0x202#16, some .clear) := by decide

/-- DV2. -/
theorem test_setRand : seen 1 (stepWord 0xC1FF (reg 1 0x77 State.reset)) = some (0x77#8, 0#8, 0x202#16) := by decide

/-- DV3. -/
theorem test_draw : (nextOf (stepWord 0xD015 State.reset)).map (fun t => (readReg 15 t, t.pc, t.ports.intent)) =
    some (0#8, 0x202#16, some (.draw 0 1 5#4)) := by decide

/-- DV4 and DV5: they never skip. -/
theorem test_key_skips : (nextOf (stepWord 0xE29E State.reset)).map (·.pc) = some 0x202#16 ∧
    (nextOf (stepWord 0xE2A1 State.reset)).map (·.pc) = some 0x202#16 := by decide

/-- DV6. -/
theorem test_storeKeypress : seen 3 (stepWord 0xF30A (reg 3 9 State.reset)) = some (9#8, 0#8, 0x202#16) := by decide

/-- DV7. -/
theorem test_storeSpriteAddress : (nextOf (stepWord 0xF129 (setAr 0x300#16 State.reset))).map (fun t => (t.ar, t.pc)) =
    some (0x300#16, 0x202#16) := by decide

/-- DV8. -/
theorem test_binaryCodedDecimal : (nextOf (exec (.binaryCodedDecimal 0) (setAr 0xFFF#16 (reg 0 123 State.reset)))).map
    (fun t => (t.mem, t.pc, halted t)) = some ([], 0x202#16, false) := by decide

/-! ### The cycle, faults and reset -/

/-- FD1: a data word. -/
theorem test_data_word : (nextOf (stepWord 0x5121 State.reset)).map (fun t => (t.pc, t.ports.diag)) =
    some (0x202#16, some (.dataWord 0x200#16 0x5121#16)) := by decide

/-- FD13: the timers decay on a data word's cycle. -/
theorem test_data_word_decay : (nextOf (stepWord 0x5121 (inject [2] (setDt 5 State.reset)))).map (·.dt) = some 3#8 := by decide

/-- FD6 and FD7: the last address a fetch may read, and the first it may not. -/
theorem test_fetch_bound : (nextOf (step (setPc 0xFFE#16 State.reset))).map (fun t => (t.pc, halted t)) = some (0x1000#16, false) ∧
    (nextOf (step (setPc 0xFFF#16 State.reset))).map (fun t => (t.pc, t.fault)) =
      some (0xFFF#16, { valid := true, cause := .fetchRange, pc := 0xFFF#16, info := 0xFFF#16 }) := by decide

/-- FD9. -/
theorem test_halted : (nextOf (step haltedState)).map (fun t => decide (t = haltedState)) = some true := by decide

/-- FD10: an odd `pc` is fetched as it is. -/
theorem test_odd_pc : (nextOf (stepWord 0x602A (setPc 0x201#16 State.reset))).map (fun t => (readReg 0 t, t.pc)) =
    some (0x2A#8, 0x203#16) := by decide

/-- R236: the trace shows `dt` and `pc` before execute. -/
theorem test_trace : (nextOf (stepWord 0xF015 (inject [0] (reg 0 5 (setDt 9 State.reset))))).map (·.ports.trace) =
    some (some { pc := 0x200#16, dt := 9#8, st := 0#8, decoded := .op (.setDelayTimer 0) }) := by decide

/-- RS1. -/
theorem test_construct : (construct [0x12#8, 0x00#8]).mem = [(0x200, 0x12#8)] ∧ (construct [0x12#8, 0x00#8]).pc = 0x200#16 := by
  decide

/-- R226, R250: a reset leaves the halt. -/
theorem test_reset_leaves_halt : halted (hostReset [] 7 haltedState) = false ∧ (hostReset [] 7 haltedState).dt = 0#8 ∧
    (hostReset [] 7 haltedState).clock.lastSample = 7 := by decide

/-- P4, its sixth cycle: the bytes in memory at `pc` are the word that runs. -/
theorem test_self_modifying :
    (nextOf (step (setPc 0x20A#16 (writeByte 0x20B 0x42 (writeByte 0x20A 0x6B State.reset))))).map (readReg 11) =
      some 0x42#8 := by decide

/-- R38: a smaller memory, a smaller stack and any decrement, as arguments. -/
theorem test_arguments :
    (nextOf (cycleWith { hardwareParams with memSize := 0x300 } decode 300 (setPc 0x2FF#16 State.reset))).map (·.fault.cause) =
      some .fetchRange ∧
    (nextOf (cycleWith { hardwareParams with stackCap := 1 } decode 0 ((deep 1).withFetchWord 16 0x2300))).map (·.fault.cause) =
      some .stackOverflow ∧
    (nextOf (cycleWith hardwareParams decode 300 (setDt 255 State.reset))).map (·.dt) = some 0#8 := by decide

/-- R38, R252: the load address and limit as arguments. -/
theorem test_constructWith :
    (constructWith { hardwareParams with loadBase := 0x600, loadLimit := 0x601 } [0x12#8, 0x34#8]).mem = [(0x600, 0x12#8)] ∧
    (constructWith { hardwareParams with loadBase := 0x600 } []).pc = 0x600#16 := by decide

/-- R244: run(2) gives the records of both cycles, in order; a halted engine gives none. -/
theorem test_run_records :
    (runRecorded 2 (State.reset.withFetchWord 16 0x00E0)).1.map (·.intent) = [some .clear, none] ∧
    ((runRecorded 2 (State.reset.withFetchWord 16 0x00E0)).1.map fun record => record.trace.map (·.pc)) =
      [some 0x200#16, some 0x202#16] ∧
    (hostStep haltedState).1 = [] := by decide

/-- R80, R81: assembly text. -/
theorem test_asm : asmText (.addAssignReg 0 1) = "AddAssignReg(0, 1)" ∧ asmText (.goto 0x20C#12) = "Goto(0x20C)" ∧
    asmDecoded (.data 0x51#8 0x21#8) = "Data(0x5121)" ∧ chip8Text (.shiftLeft 0 15) = "SHL V0, VF" := by decide

/-! ### Witnesses: for each obligation with hypotheses a state and operands that meet them, for each clause and at boundary values -/

/-- The reset state with an instruction word at 0x200. -/
def holding (w : Nat) : State := State.reset.withFetchWord 16 w

theorem witness_DecodeOfEncodeIsTheInstruction : (Instr.call 0xFFF#12).wf = true ∧ (Instr.load 15).wf = true := by decide

theorem witness_EncodeOfDecodeIsTheWord : decode 0x00#8 0x00#8 = .op (.call 0x000#12) ∧ decode 0xFF#8 0x65#8 = .op (.load 15) := by
  decide

theorem witness_DataWordsAreTheListedWords :
    IsDataWord 0x5001 ∧ IsDataWord 0x800F ∧ IsDataWord 0x900F ∧ IsDataWord 0xE000 ∧ IsDataWord 0xFFFF ∧
    ¬IsDataWord 0x5FF0 ∧ ¬IsDataWord 0x8FFE ∧ ¬IsDataWord 0x9FF0 ∧ ¬IsDataWord 0xEFA1 ∧ ¬IsDataWord 0xFF65 ∧ ¬IsDataWord 0 := by
  simp [IsDataWord]

theorem witness_CallOnlyAdvances : (0x0E1#12 : Addr12) ≠ 0x0E0#12 ∧ (0x0E1#12 : Addr12) ≠ 0x0EE#12 := by decide

theorem witness_ReturnPopsOrAdvances : (deep 1).stack = [] ++ [0x200#16] ∧ (deep 24).stack = (deep 23).stack ++ [0x200#16] ∧
    State.reset.stack = [] := by decide

theorem witness_CallFunctionPushesOrFaults : (deep 0).stack.length < 24 ∧ (deep 23).stack.length < 24 ∧
    (deep 24).stack.length = 24 := by decide

theorem witness_ReturnUndoesCallFunction : (deep 23).stack.length < 24 ∧
    ∃ t, exec (.callFunction 0xFFF#12) (deep 23) = .next t ∧ (setPc 0x300#16 t).stack = t.stack := ⟨by decide, _, rfl, rfl⟩

theorem witness_AddAssignAddsAConstantWithoutAFlag : State.reset.legacy.addAssign = false ∧
    (setLegacy { hardwareLegacy with addAssign := true } State.reset).legacy.addAssign = true := by decide

theorem witness_flag_writers_with_another_destination : (0 : Reg) ≠ 15 ∧ (14 : Reg) ≠ 15 := by decide

theorem witness_ShiftLeftDoublesIntoBothRegisters : State.reset.legacy.shlMask = false ∧
    (setLegacy { hardwareLegacy with shlMask := true } State.reset).legacy.shlMask = true := by decide

theorem witness_DumpStoresRegistersAtAr :
    ((setAr 0xFF0#16 State.reset).legacy.dumpLoad = false ∧ (setAr 0xFF0#16 State.reset).ar.toNat + (15 : Reg).val ≤ 4095 ∧
      (15 : Reg) ≤ 15 ∧ 0xFEF < (setAr 0xFF0#16 State.reset).ar.toNat ∧
      (setAr 0xFF0#16 State.reset).ar.toNat + (14 : Reg).val < 0xFFF) ∧
    (setAr 0xFF1#16 State.reset).legacy.dumpLoad = false ∧ (setAr 0xFF1#16 State.reset).ar.toNat + (15 : Reg).val > 4095 := by
  decide

theorem witness_LoadReadsRegistersAtAr :
    (State.reset.legacy.dumpLoad = false ∧ (setAr 0xFFF#16 State.reset).ar.toNat + (0 : Reg).val ≤ 4095) ∧
    (setAr 0xFFF#16 State.reset).ar.toNat + (1 : Reg).val > 4095 := by decide

/-- For the two statements about the legacy Dump and the two about the legacy Load. -/
theorem witness_Legacy_block_inside_and_outside :
    (setLegacy dumpLoadSet State.reset).legacy.dumpLoad = true ∧
    (∀ i ≤ (15 : Reg).val, ((setAr 0x100#16 State.reset).ar.toNat + i) % 256 ≤ 15) ∧
    (∀ i ≤ (0 : Reg).val, ((setAr 15#16 State.reset).ar.toNat + i) % 256 ≤ 15) ∧
    (∃ i ≤ (15 : Reg).val, ((setAr 1#16 State.reset).ar.toNat + i) % 256 > 15) ∧
    ∃ i ≤ (0 : Reg).val, ((setAr 0xFF#16 State.reset).ar.toNat + i) % 256 > 15 :=
  ⟨by decide, by decide, by decide, ⟨15, by decide⟩, ⟨0, by decide⟩⟩

theorem witness_LegacyDumpRepeatsTheFirstRegisters :
    (setAr 0x100#16 State.reset).ar.toNat % 256 = 0 ∧ 0 < (setAr 2#16 State.reset).ar.toNat % 256 ∧
    (∀ i ≤ (13 : Reg).val, ((setAr 2#16 State.reset).ar.toNat + i) % 256 ≤ 15) ∧
    (1 : Reg).val < (setAr 2#16 State.reset).ar.toNat % 256 ∧
    (setAr 2#16 State.reset).ar.toNat % 256 + (12 : Reg).val < (15 : Reg).val := by decide

theorem witness_LoadUndoesDump :
    State.reset.legacy.dumpLoad = false ∧ (setAr 0xFF0#16 State.reset).ar.toNat + (15 : Reg).val ≤ 4095 ∧
    ∃ t, exec (.dump 15) (setAr 0xFF0#16 State.reset) = .next t ∧ (setAr 0xFF0#16 t).legacy = State.reset.legacy ∧
      (setAr 0xFF0#16 t).ar = (setAr 0xFF0#16 State.reset).ar ∧ ∀ a, readByte a (setAr 0xFF0#16 t) = readByte a t :=
  ⟨by decide, by decide, _, rfl, rfl, rfl, fun _ => rfl⟩

/-- The bytes land on both bytes of the next word, on neither from below, and on neither from above. -/
theorem witness_DumpedBytesAreFetchedNext :
    ((setAr 0x202#16 (holding 0xF155)).ar.toNat + (0 : Reg).val = 0x202 ∧
      (setAr 0x202#16 (holding 0xF155)).ar.toNat + (1 : Reg).val = 0x202 + 1 ∧
      0x202 + 1 < (setAr 0x204#16 (holding 0xF155)).ar.toNat ∧
      (setAr 0x200#16 (holding 0xF155)).ar.toNat + (1 : Reg).val < 0x202) ∧
    halted (holding 0xF155) = false ∧ (holding 0xF155).pc.toNat ≤ 4094 ∧ fetchedInstr (holding 0xF155) = .op (.dump 1) ∧
    (holding 0xF155).legacy.dumpLoad = false ∧
    ∃ t, step (setAr 0x202#16 (holding 0xF155)) = .next t ∧ t.pc.toNat = 0x202 :=
  ⟨by decide, by decide, by decide, by decide, by decide, _, rfl, by decide⟩

/-- A cycle that does not fault and one that does. -/
theorem witness_TimersDecayOnceOnEveryCompletedCycle :
    (∃ t, cycle decode (holding 0x5121) = .next t ∧ halted t = false) ∧
    ∃ t, cycle decode (setPc 0xFFF#16 State.reset) = .next t ∧ halted t = true := ⟨⟨_, rfl, rfl⟩, _, rfl, rfl⟩

theorem witness_FineDecrementIsTheCountedTicks : State.reset.legacy.coarseTimer = false ∧
    255 ≤ (setClock { State.reset.clock with pendingTicks := 255#8 } State.reset).clock.pendingTicks.toNat := by decide

theorem witness_CoarseDecrementIsTheElapsedSecondsModulo60 :
    (setLegacy coarseSet State.reset).legacy.coarseTimer = true ∧
    timeReading (inject [0] State.reset).clock = State.reset.clock.lastSample + 0 ∧
    timeReading (inject [61] State.reset).clock = State.reset.clock.lastSample + 61 := by decide

/-- Each of the two premises with the other timer's instruction. -/
theorem witness_TimersRiseOnlyWhenSet :
    (∃ t, step (holding 0xF018) = .next t) ∧ (∀ r, fetchedInstr (holding 0xF018) ≠ .op (.setDelayTimer r)) ∧
    (∃ t, step (holding 0xF015) = .next t) ∧ ∀ r, fetchedInstr (holding 0xF015) ≠ .op (.setSoundTimer r) :=
  ⟨⟨_, rfl⟩, by decide, ⟨_, rfl⟩, by decide⟩

/-- P6, its second and third cycle: F015, then F107. -/
theorem witness_SetThenStoreDelayTimerSeesOneDecay :
    let s := writeByte 0x203 0x07 (writeByte 0x202 0xF1 (inject [2, 1] (reg 0 5 (holding 0xF015))))
    halted s = false ∧ s.pc.toNat ≤ 4092 ∧ fetchedInstr s = .op (.setDelayTimer 0) ∧
      ∃ t, step s = .next t ∧ fetchedInstr t = .op (.storeDelayTimer 1) ∧ ∃ u, step t = .next u ∧ readReg 1 u = 3#8 :=
  ⟨by decide, by decide, by decide, _, rfl, by decide, _, rfl, by decide⟩

/-- An instruction that does not fault and one that does. -/
theorem witness_StepRunsTheDecodedInstruction :
    (halted (holding 0x602A) = false ∧ (holding 0x602A).pc.toNat ≤ 4094 ∧ fetchedInstr (holding 0x602A) = .op (.set 0 0x2A#8)) ∧
    halted (deep 24) = false ∧ ((deep 24).withFetchWord 16 0x2300).pc.toNat ≤ 4094 ∧
    fetchedInstr ((deep 24).withFetchWord 16 0x2300) = .op (.callFunction 0x300#12) := by decide

theorem witness_DataWordOnlyAdvances :
    let s := (setPc 0xFFE#16 State.reset).withFetchWord 16 0xF0FF
    halted s = false ∧ s.pc.toNat ≤ 4094 ∧ fetchedInstr s = .data 0xF0#8 0xFF#8 := by decide

/-- Just beyond the last slot, and in the last slot a cycle that faults with another cause. -/
theorem witness_FetchBeyondMemoryFaults :
    (halted State.reset = false ∧ (setPc 0xFFF#16 State.reset).pc.toNat > 4094) ∧
    let s := (setPc 0xFFE#16 (deep 24)).withFetchWord 16 0x2300
    halted s = false ∧ s.pc.toNat ≤ 4094 ∧ ∃ t, cycle decode s = .next t ∧ halted t = true :=
  ⟨by decide, by decide, by decide, _, rfl, rfl⟩

theorem witness_HaltedEngineStaysUntilReset : halted haltedState = true := by decide

theorem witness_FaultsArePrecise :
    halted (setAr 0xFFF#16 (holding 0xF155)) = false ∧
    ∃ t, cycle decode (setAr 0xFFF#16 (holding 0xF155)) = .next t ∧ halted t = true := ⟨by decide, _, rfl, rfl⟩

/-- Each of the four causes at its boundary, and a step without a fault. -/
theorem witness_FaultsExactlyOnTheirConditions :
    FaultCase (setPc 0xFFF#16 State.reset) 0xFFF#16 .fetchRange ∧
    FaultCase (setAr 0xFFF#16 (holding 0xF155)) 0xFFF#16 .memRange ∧
    FaultCase ((deep 24).withFetchWord 16 0x2300) 0x300#16 .stackOverflow ∧
    FaultCase (setLegacy dumpLoadSet (setAr 1#16 (holding 0xFF65))) 1#16 .legacyIndexRange ∧
    ∃ t, step State.reset = .next t ∧ halted t = false :=
  ⟨by unfold FaultCase; decide, ⟨by decide, by decide, ⟨1, by decide, by decide⟩, by decide⟩,
    ⟨by decide, 0x300#12, by decide, by decide, by decide⟩,
    ⟨by decide, by decide, ⟨15, by decide, 15, by decide, by decide⟩, by decide⟩, _, rfl, rfl⟩

theorem witness_PcMovesAsTheAdvanceRuleSays : ∃ t, exec (.skipEq 0 0x00#8) (setPc 0xFFFE#16 State.reset) = .next t ∧ t.pc = 2#16 :=
  ⟨_, rfl, by decide⟩

/-- A state that is not reset's meets the invariant, and it has a step. -/
theorem witness_StepKeepsTheInvariant : (deep 24).Inv ∧ haltedState.Inv ∧ (holding 0x602A).Inv ∧
    ∃ t, step (holding 0x602A) = .next t := ⟨by decide, by decide, by decide, _, rfl⟩

/-- The first and the last byte of an image, a byte below it, a byte after a short one. -/
theorem witness_ImageLandsAt0x200Truncated :
    (0 < [0x12#8].length ∧ 0 < 0xCA0 ∧ 0x200 = 0x200 + 0) ∧
    (0xC9F < (List.replicate 0xCA1 0xFF#8).length ∧ 0xC9F < 0xCA0 ∧ 0xE9F = 0x200 + 0xC9F) ∧
    0x1FF < 0x200 ∧ 0xEA0 ≤ 0xEA0 ∧ 0x200 + [0x12#8].length ≤ 0x201 :=
  ⟨by decide, ⟨by rw [List.length_replicate]; decide, by decide, by decide⟩, by decide, by decide, by decide⟩

theorem witness_OnlyDumpWritesMemory :
    ∃ t, step (setAr 0xFFF#16 (reg 0 0x5A (holding 0xF055))) = .next t ∧
      readByte 0xFFF t ≠ readByte 0xFFF (setAr 0xFFF#16 (reg 0 0x5A (holding 0xF055))) := ⟨_, rfl, by decide⟩

theorem witness_OnlyCallFunctionPushesAndReturnPops :
    (∃ t, step (holding 0x2ABC) = .next t ∧ t.stack = [0x200#16]) ∧
    ∃ t, step ((deep 1).withFetchWord 16 0x00EE) = .next t ∧ t.stack = [] := ⟨⟨_, rfl, by decide⟩, _, rfl, by decide⟩

theorem witness_RegistersWrittenAreThoseOfTheTable :
    (∃ t, exec (.load 14) (setAr 0x300#16 State.reset) = .next t ∧ ¬MayWrite State.reset 15 (.load 14) ∧ t.ar ≠ 0x300#16) ∧
    ∃ t, exec (.shiftLeft 0 1) State.reset = .next t ∧ ¬MayWrite State.reset 2 (.shiftLeft 0 1) :=
  ⟨⟨_, rfl, by unfold MayWrite; decide, by decide⟩, _, rfl, by unfold MayWrite; decide⟩

theorem witness_StepKeepsTheParameters : ∃ t, step (setLegacy dumpLoadSet (holding 0xF155)) = .next t := ⟨_, rfl⟩

theorem witness_TraceRecordsTheStateBeforeExecute :
    (halted State.reset = false ∧ (setPc 0xFFE#16 State.reset).pc.toNat ≤ 4094 ∧
      ∃ t, cycle decode (setPc 0xFFE#16 State.reset) = .next t) ∧
    (setPc 0xFFF#16 State.reset).pc.toNat > 4094 ∧ ∃ t, cycle decode (setPc 0xFFF#16 State.reset) = .next t :=
  ⟨⟨by decide, by decide, _, rfl⟩, by decide, _, rfl⟩

theorem witness_PortsAreNeverRead :
    halted State.reset = false ∧ ∃ t u, exec .ret State.reset = .next t ∧
      exec .ret (setPorts { Ports.silent with intent := some .clear } State.reset) = .next u ∧ t.ports ≠ u.ports :=
  ⟨by decide, _, _, rfl, rfl, by decide⟩

theorem witness_TimeSourceReachesTheTimersOnly :
    ∃ t u, cycle decode (setDt 9 (holding 0x602A)) = .next t ∧
      cycle decode (setClock { Clock.reset with injected := [4] } (setDt 9 (holding 0x602A))) = .next u ∧ u.dt = 5#8 :=
  ⟨_, _, rfl, rfl, by decide⟩

theorem witness_EmptyImageRunsOffTheEnd : 0 ≤ 1792 ∧ 1792 ≤ 1792 := by decide

theorem witness_ZeroWordOnlyAdvances : halted (setPc 0xFFE#16 State.reset) = false ∧ (setPc 0xFFE#16 State.reset).pc.toNat ≤ 4094 ∧
    fetchByte0 (setPc 0xFFE#16 State.reset) = 0 ∧ fetchByte1 (setPc 0xFFE#16 State.reset) = 0 := by decide

/-- A cycle that does not fault and one that does. -/
theorem witness_DecaySubtractsTheSuppliedDecrement :
    (∃ t, cycleWith hardwareParams decode 300 (setDt 9 (holding 0xF018)) = .next t ∧ halted t = false) ∧
    ∃ t, cycleWith hardwareParams decode 1 (setPc 0xFFF#16 State.reset) = .next t ∧ halted t = true := ⟨⟨_, rfl, rfl⟩, _, rfl, rfl⟩

theorem witness_CycleIsTheRelationAtItsCarriedArguments :
    ∃ t, cycleWith hardwareParams decode 2 (setLegacy dumpLoadSet (holding 0xF155)) = .next t := ⟨_, rfl⟩

end Sys2Proof.Tests
end

section
/-! PROOFS. The fetch, decode and advance rules (40_fetch_decode.md). First the frames of the updates that a cycle makes
around an instruction, then what an instruction can do to `pc` and the fault record, said once; the statements follow. -/

namespace Sys2Proof.Machine

/-! ### Frames compose -/

section
variable {ps qs : List Part} {s t u : State}

theorem Part.same_trans {p : Part} (h : p.same s t) (h' : p.same t u) : p.same s u := by
  cases p
  case regs | mem => exact fun x => (h' x).trans (h x)
  all_goals exact Eq.trans h' h

theorem OnlyChanges.trans (h : OnlyChanges ps s t) (h' : OnlyChanges qs t u) : OnlyChanges (ps ++ qs) s u := fun p hp =>
  Part.same_trans (h p fun hm => hp (List.mem_append_left _ hm)) (h' p fun hm => hp (List.mem_append_right _ hm))

theorem OnlyChanges.mono (h : OnlyChanges ps s t) (hsub : ps ⊆ qs) : OnlyChanges qs s t :=
  fun p hp => h p fun hm => hp (hsub hm)

end

theorem onlyChanges_setPc (v : Word) (s : State) : OnlyChanges [.pc] s (setPc v s) := by
  intro p hp
  cases p <;> simp_all [Part.same]

theorem onlyChanges_setFault (v : FaultRecord) (s : State) : OnlyChanges [.fault] s (setFault v s) := by
  intro p hp
  cases p <;> simp_all [Part.same]

theorem onlyChanges_setPorts (v : Ports) (s : State) : OnlyChanges [.ports] s (setPorts v s) := by
  intro p hp
  cases p <;> simp_all [Part.same]

theorem onlyChanges_timerDriver (s : State) : OnlyChanges [.dt, .st, .clock] s (timerDriver s) := by
  intro p hp
  cases p <;> simp_all [Part.same]

/-! ### The data-word path (R105) -/

@[simp] theorem execDataWord_eq (w : Word) (s : State) :
    execDataWord w s = setPc (s.pc + 2) (setPorts { s.ports with diag := some (.dataWord s.pc w) } s) := rfl

/-- The decrement of a cycle is read from the clock and the parameters alone (R240). -/
theorem decrement_congr {s t : State} (hc : t.clock = s.clock) (hl : t.legacy = s.legacy) : decrement t = decrement s := by
  simp only [decrement, carriedParams, hc, hl]

/-! ### What an instruction does to `pc` and the fault record -/

/-- An instruction completes, with `pc` where the advance rule says and the fault record as it was (R107), or it raises a
fault of its own, which is not the fetch's, and the advance rule leaves `pc` alone (R223, R224). -/
def CompletesOrFaults (i : Instr) (s t : State) : Prop :=
  (t.fault = s.fault ∧ t.pc = pcAfter s i) ∨
  ∃ cause info, cause ≠ .none ∧ cause ≠ .fetchRange ∧ t = raiseFault cause info s ∧ pcAfter s i = s.pc

section
variable {s t : State}

theorem execReturn_completes (h : execReturn s = .next t) : CompletesOrFaults .ret s t := by
  rcases List.eq_nil_or_concat s.stack with hs | ⟨rest, top, hs⟩
  · rw [execReturn_empty hs] at h
    cases h
    exact .inl ⟨rfl, by simp [pcAfter, hs]⟩
  · rw [List.concat_eq_append] at hs
    rw [execReturn_pop hs] at h
    cases h
    exact .inl ⟨rfl, by simp [pcAfter, hs]⟩

theorem execCallFunction_completesOrFaults {addr : Addr12} (h : execCallFunction addr s = .next t) :
    CompletesOrFaults (.callFunction addr) s t := by
  by_cases hs : s.stack.length = 24
  · rw [execCallFunction_full addr hs] at h
    cases h
    exact .inr ⟨.stackOverflow, _, by decide, by decide, rfl, by simp [pcAfter, hs]⟩
  · rw [execCallFunction_push addr hs] at h
    cases h
    exact .inl ⟨rfl, by simp [pcAfter, hs]⟩

/-- Dump and Load have one shape: a check that chooses between a fault and an update that ends in the default advance. -/
theorem completesOrFaults_of_check {i : Instr} {outside : Bool} {cause : FaultCause} {info : Word} {u : State}
    (h : (if outside then .next (raiseFault cause info s) else .next (advance u) : Answer) = .next t)
    (hn : cause ≠ .none) (hr : cause ≠ .fetchRange) (hu : u.fault = s.fault) (hup : u.pc = s.pc)
    (hpc : pcAfter s i = if outside then s.pc else s.pc + 2) :
    CompletesOrFaults i s t := by
  cases outside with
  | true =>
    cases h
    exact .inr ⟨cause, info, hn, hr, rfl, hpc⟩
  | false =>
    cases h
    exact .inl ⟨hu, by simp [hpc, hup]⟩

theorem execDump_completesOrFaults {reg : Reg} (h : execDump reg s = .next t) : CompletesOrFaults (.dump reg) s t := by
  cases hl : s.legacy.dumpLoad with
  | true =>
    simp only [execDump, dumpWith, carriedParams_legacy, hl, if_true, dumpToRegisters] at h
    exact completesOrFaults_of_check h (by decide) (by decide) rfl rfl (by simp only [pcAfter, hl]; rfl)
  | false =>
    simp only [execDump, dumpWith, carriedParams_legacy, hl, Bool.false_eq_true, if_false, dumpToMemory] at h
    exact completesOrFaults_of_check h (by decide) (by decide) rfl rfl (by simp only [pcAfter, hl]; rfl)

theorem execLoad_completesOrFaults {reg : Reg} (h : execLoad reg s = .next t) : CompletesOrFaults (.load reg) s t := by
  cases hl : s.legacy.dumpLoad with
  | true =>
    simp only [execLoad, loadWith, carriedParams_legacy, hl, if_true, loadFromRegisters] at h
    exact completesOrFaults_of_check h (by decide) (by decide) rfl rfl (by simp only [pcAfter, hl]; rfl)
  | false =>
    simp only [execLoad, loadWith, carriedParams_legacy, hl, Bool.false_eq_true, if_false, loadFromMemory] at h
    exact completesOrFaults_of_check h (by decide) (by decide) rfl rfl (by simp only [pcAfter, hl]; rfl)

/-- Four instructions skip, four have a branch of their own; every other one completes by its definition. -/
theorem exec_completesOrFaults {i : Instr} (h : exec i s = .next t) : CompletesOrFaults i s t := by
  cases i
  case ret => exact execReturn_completes h
  case callFunction => exact execCallFunction_completesOrFaults h
  case dump => exact execDump_completesOrFaults h
  case load => exact execLoad_completesOrFaults h
  case skipEq | skipNEq | skipEqReg | skipNEqReg =>
    cases h
    refine .inl ⟨rfl, ?_⟩
    simp only [pcAfter]
    split <;> simp_all
  all_goals
    cases h
    exact .inl ⟨rfl, rfl⟩

/-- FETCH_RANGE is the fetch's alone: no instruction raises it on an engine that is not halted. -/
theorem exec_cause_ne_fetchRange {i : Instr} (hv : s.fault.valid = false) (h : exec i s = .next t)
    (ht : t.fault.valid = true) : t.fault.cause ≠ .fetchRange := by
  rcases exec_completesOrFaults h with ⟨hf, -⟩ | ⟨cause, info, -, hr, rfl, -⟩
  · rw [hf, hv] at ht
    cases ht
  · exact hr

end

/-! ### The statements -/

/-- Settles O43: an instruction that completes follows the advance rule, and one that faults leaves `pc`, as the rule says. -/
theorem pcMovesAsTheAdvanceRuleSays : Obligations.PcMovesAsTheAdvanceRuleSays := by
  intro i s t h
  rcases exec_completesOrFaults h with ⟨-, hpc⟩ | ⟨cause, info, -, -, rfl, hpc⟩
  · exact hpc
  · exact hpc.symm

/-- Settles O38: the fetch check comes before any read, and beyond it the cause of a fault is an instruction's. -/
theorem fetchBeyondMemoryFaults : Obligations.FetchBeyondMemoryFaults := by
  refine ⟨fun decoder s hv hp => ⟨_, cycle_of_fetchOutside hv hp, rfl, ?_⟩, fun decoder s t hv hp h ht => ?_⟩
  · exact ((onlyChanges_setPorts _ s).trans (onlyChanges_setFault _ _)).mono (by simp)
  · rw [halted_eq] at hv ht
    rcases cycle_cases h with ⟨hs, -⟩ | ⟨-, hgt, -⟩ | ⟨-, -, b0, b1, -, rfl⟩ | ⟨-, -, i, u, -, hu, ⟨hf, rfl⟩ | ⟨hf, rfl⟩⟩
    · exact absurd hs (by simp [hv])
    · omega
    · exact absurd ht (by simp [hv])
    · exact exec_cause_ne_fetchRange (s := fetched (.op i) s) hv hu hf
    · exact absurd ht (by simp [hf])

/-- Settles O37: the cycle of a data word is its diagnostic, the default advance and the decay, in that order. -/
theorem dataWordOnlyAdvances : Obligations.DataWordOnlyAdvances := by
  intro s b0 b1 hv hp hd
  have hdec : decrement (execDataWord (wordOfBytes (fetchByte0 s) (fetchByte1 s)) (fetched (.data b0 b1) s)) = decrement s :=
    decrement_congr rfl rfl
  refine ⟨_, cycle_of_data hv hp hd, rfl, rfl, rfl, ?_, ?_, ?_⟩
  · rw [timerDriver_dt, toNat_decay, hdec]
    rfl
  · rw [timerDriver_st, toNat_decay, hdec]
    rfl
  · exact ((((onlyChanges_setPorts _ s).trans (onlyChanges_setPorts _ _)).trans (onlyChanges_setPc _ _)).trans
      (onlyChanges_timerDriver _)).mono (by simp)

end Sys2Proof.Machine
end

section
/-! PROOFS. Control transfer (41_control.md R120 to R128): the decoder on the words of the control instructions, the facts about
the stack's frame, the address operand and a skip's `pc`, and then the statements, one for each rule. -/

namespace Sys2Proof.Machine

/-! ### The words of the control instructions decode to them (30_encoding.md R75) -/

/-- Two words with different address fields differ: how 0nnn is told from 00E0 and 00EE. -/
theorem wordA_ne_of_nnn_ne {op : Nibble} {addr : Addr12} {w : Word} (h : addr ≠ nnnField w) : wordA op addr ≠ w := by
  rintro rfl
  exact h (nnnField_wordA op addr).symm

theorem decodesTo_call {addr : Addr12} (hClear : addr ≠ 0x0E0#12) (hRet : addr ≠ 0x0EE#12) :
    DecodesTo (wordA 0x0#4 addr) (.call addr) := by
  have hne : wordA 0x0#4 addr ≠ 0x00E0#16 := wordA_ne_of_nnn_ne hClear
  have hne' : wordA 0x0#4 addr ≠ 0x00EE#16 := wordA_ne_of_nnn_ne hRet
  exact decode_bytes _ (by simp [decodeWord, decodeGroup0, hne, hne'])

section
variable (addr : Addr12) (reg a b : Reg) (k : Byte)

theorem decodesTo_goto : DecodesTo (wordA 0x1#4 addr) (.goto addr) := decode_bytes _ (by simp [decodeWord])

theorem decodesTo_callFunction : DecodesTo (wordA 0x2#4 addr) (.callFunction addr) := decode_bytes _ (by simp [decodeWord])

theorem decodesTo_jumpOffset : DecodesTo (wordA 0xB#4 addr) (.jumpOffset addr) := decode_bytes _ (by simp [decodeWord])

theorem decodesTo_skipEq : DecodesTo (wordXK 0x3#4 reg k) (.skipEq reg k) := decode_bytes _ (by simp [decodeWord])

theorem decodesTo_skipNEq : DecodesTo (wordXK 0x4#4 reg k) (.skipNEq reg k) := decode_bytes _ (by simp [decodeWord])

theorem decodesTo_skipEqReg : DecodesTo (wordXYN 0x5#4 a b 0x0#4) (.skipEqReg a b) := decode_bytes _ (by simp [decodeWord])

theorem decodesTo_skipNEqReg : DecodesTo (wordXYN 0x9#4 a b 0x0#4) (.skipNEqReg a b) := decode_bytes _ (by simp [decodeWord])

end

/-! ### The stack's frame, the address operand and a skip's `pc` -/

theorem onlyChanges_setStack (v : List Word) (s : State) : OnlyChanges [.stack] s (setStack v s) := by
  intro p hp
  cases p <;> simp_all [Part.same]

/-- The address operand is zero-extended, so it keeps its value (R74). -/
@[simp] theorem toNat_zext16 (addr : Addr12) : (zext16 addr).toNat = addr.toNat :=
  BitVec.toNat_setWidth_of_le (by decide)

section
variable {c : Bool} {P : Prop} [Decidable P] {s : State}

/-- A skip's `pc`, when the tested bit says that `P` holds (R107). -/
theorem skipIf_pc_of_iff (h : c = true ↔ P) : (skipIf c s).pc = if P then s.pc + 4 else s.pc + 2 := by
  by_cases hP : P
  · simp [h.2 hP, hP]
  · simp [Bool.eq_false_iff.2 (mt h.1 hP), hP]

/-- A skip's `pc`, when the tested bit says that `P` fails (R107). -/
theorem skipIf_pc_of_iff_not (h : c = true ↔ ¬P) : (skipIf c s).pc = if P then s.pc + 2 else s.pc + 4 :=
  (skipIf_pc_of_iff h).trans (ite_not ..)

end

theorem onlyChanges_skipIf (c : Bool) (s : State) : OnlyChanges [.pc] s (skipIf c s) := onlyChanges_setPc _ s

/-! ### The statements -/

/-- Settles O5: Call is the default advance, and its word is neither that of Clear nor that of Return. -/
theorem callOnlyAdvances : Obligations.CallOnlyAdvances :=
  ⟨fun _ => decodesTo_call, fun _ s => ⟨advance s, rfl, rfl, onlyChanges_setPc _ s⟩⟩

/-- Settles O6: the two branches of Return, each an update of `pc` after one of the stack or of the diagnostic port. -/
theorem returnPopsOrAdvances : Obligations.ReturnPopsOrAdvances := by
  refine ⟨rfl, fun s rest top hs => ⟨_, execReturn_pop hs, rfl, rfl, ?_⟩, fun s hs => ⟨_, execReturn_empty hs, rfl, rfl, ?_⟩⟩
  · exact ((onlyChanges_setStack rest s).trans (onlyChanges_setPc _ _)).mono (by simp)
  · exact ((onlyChanges_setPorts _ s).trans (onlyChanges_setPc _ _)).mono (by simp)

/-- Settles O7: Goto writes its zero-extended address to `pc`. -/
theorem gotoSetsPc : Obligations.GotoSetsPc :=
  ⟨decodesTo_goto, fun addr s => ⟨setPc (zext16 addr) s, rfl, toNat_zext16 addr, onlyChanges_setPc _ s⟩⟩

/-- Settles O8: below 24 entries a push and then a jump, at 24 entries the fault record alone. -/
theorem callFunctionPushesOrFaults : Obligations.CallFunctionPushesOrFaults := by
  refine ⟨decodesTo_callFunction, fun addr s hs => ⟨_, execCallFunction_push addr hs.ne, rfl, toNat_zext16 addr, ?_⟩,
    fun addr s hs => ⟨_, execCallFunction_full addr hs, rfl, onlyChanges_setFault _ s⟩⟩
  exact ((onlyChanges_setStack _ s).trans (onlyChanges_setPc _ _)).mono (by simp)

/-- Settles O9: each skip tests one bit, which says that the two values are equal or that they differ. -/
theorem skipsAddFourWhenTheirConditionHolds : Obligations.SkipsAddFourWhenTheirConditionHolds :=
  ⟨fun reg k => ⟨decodesTo_skipEq reg k, decodesTo_skipNEq reg k⟩,
    fun a b => ⟨decodesTo_skipEqReg a b, decodesTo_skipNEqReg a b⟩,
    fun _ _ s => ⟨_, rfl, skipIf_pc_of_iff beq_iff_eq, onlyChanges_skipIf _ s⟩,
    fun _ _ s => ⟨_, rfl, skipIf_pc_of_iff_not bne_iff_ne, onlyChanges_skipIf _ s⟩,
    fun _ _ s => ⟨_, rfl, skipIf_pc_of_iff beq_iff_eq, onlyChanges_skipIf _ s⟩,
    fun _ _ s => ⟨_, rfl, skipIf_pc_of_iff_not bne_iff_ne, onlyChanges_skipIf _ s⟩⟩

/-- Settles O10: the sum is taken in 16 bits, and the register, zero-extended, keeps its value. -/
theorem jumpOffsetAddsRegisterZero : Obligations.JumpOffsetAddsRegisterZero := by
  refine ⟨decodesTo_jumpOffset, fun _ s => ⟨setPc (s.ar + (readReg 0 s).setWidth 16) s, rfl, ?_, onlyChanges_setPc _ s⟩⟩
  rw [setPc_pc, BitVec.toNat_add, BitVec.toNat_setWidth_of_le (by decide)]

end Sys2Proof.Machine
end

section
/-! PROOFS. Register file and ALU (42_alu.md R142 to R154): the decoder on the words of the ALU instructions, what each of the three
ends of an ALU instruction writes and leaves alone, the values and flags as numbers, and then the statements. -/

namespace Sys2Proof.Machine

/-! ### The words of the ALU instructions decode to them (30_encoding.md R75) -/

section
variable (reg a b : Reg) (k : Byte)

theorem decodesTo_set : DecodesTo (wordXK 0x6#4 reg k) (.set reg k) := decode_bytes _ (by simp [decodeWord])

theorem decodesTo_addAssign : DecodesTo (wordXK 0x7#4 reg k) (.addAssign reg k) := decode_bytes _ (by simp [decodeWord])

/-- A word whose high nibble is 8 is read by its low nibble. -/
theorem decodesTo_of_decodeGroup8 {n : Nibble} {i : Instr} (h : decodeGroup8 (wordXYN 0x8#4 a b n) = some i) :
    DecodesTo (wordXYN 0x8#4 a b n) i := decode_bytes _ (by simpa [decodeWord] using h)

theorem decodesTo_copy : DecodesTo (wordXYN 0x8#4 a b 0x0#4) (.copy a b) :=
  decodesTo_of_decodeGroup8 a b (by simp [decodeGroup8])

theorem decodesTo_or : DecodesTo (wordXYN 0x8#4 a b 0x1#4) (.or a b) :=
  decodesTo_of_decodeGroup8 a b (by simp [decodeGroup8])

theorem decodesTo_and : DecodesTo (wordXYN 0x8#4 a b 0x2#4) (.and a b) :=
  decodesTo_of_decodeGroup8 a b (by simp [decodeGroup8])

theorem decodesTo_xor : DecodesTo (wordXYN 0x8#4 a b 0x3#4) (.xor a b) :=
  decodesTo_of_decodeGroup8 a b (by simp [decodeGroup8])

theorem decodesTo_addAssignReg : DecodesTo (wordXYN 0x8#4 a b 0x4#4) (.addAssignReg a b) :=
  decodesTo_of_decodeGroup8 a b (by simp [decodeGroup8])

theorem decodesTo_subAssignReg : DecodesTo (wordXYN 0x8#4 a b 0x5#4) (.subAssignReg a b) :=
  decodesTo_of_decodeGroup8 a b (by simp [decodeGroup8])

theorem decodesTo_shiftRight : DecodesTo (wordXYN 0x8#4 a b 0x6#4) (.shiftRight a b) :=
  decodesTo_of_decodeGroup8 a b (by simp [decodeGroup8])

theorem decodesTo_subtract : DecodesTo (wordXYN 0x8#4 a b 0x7#4) (.subtract a b) :=
  decodesTo_of_decodeGroup8 a b (by simp [decodeGroup8])

theorem decodesTo_shiftLeft : DecodesTo (wordXYN 0x8#4 a b 0xE#4) (.shiftLeft a b) :=
  decodesTo_of_decodeGroup8 a b (by simp [decodeGroup8])

end

/-! ### Frames of register writes -/

theorem OnlyRegisters.trans {rs qs : List Reg} {s t u : State} (h : OnlyRegisters rs s t) (h' : OnlyRegisters qs t u) :
    OnlyRegisters (rs ++ qs) s u := fun r hr =>
  (h' r fun hm => hr (List.mem_append_right _ hm)).trans (h r fun hm => hr (List.mem_append_left _ hm))

theorem onlyRegisters_writeReg (r : Reg) (v : Byte) (s : State) : OnlyRegisters [r] s (writeReg r v s) := fun _ hq =>
  readAt_writeAt_ne s.regs (List.ne_of_not_mem_cons hq) v

theorem onlyChanges_setRegs (v : RegFile) (s : State) : OnlyChanges [.regs] s (setRegs v s) := by
  intro p hp
  cases p <;> simp_all [Part.same]

theorem onlyChanges_advance_setRegs (v : RegFile) (s : State) : OnlyChanges [.regs, .pc] s (advance (setRegs v s)) :=
  (onlyChanges_setRegs v s).trans (onlyChanges_setPc _ _)

/-! ### The three ends of an ALU instruction -/

/-- The end without a flag writes its register. -/
theorem finishReg_writes (r : Reg) (v : Byte) (s : State) :
    ∃ t, finishReg r v s = .next t ∧ readReg r t = v ∧ t.pc = s.pc + 2 ∧ OnlyRegisters [r] s t ∧
      OnlyChanges [.regs, .pc] s t :=
  ⟨_, rfl, readAt_writeAt_same _ r v, rfl, onlyRegisters_writeReg r v s, onlyChanges_advance_setRegs _ s⟩

/-- The end with a flag: the flag is written last, so register 15 holds it, and the result stands in any other register. -/
theorem finishRegFlag_writes (r : Reg) (v f : Byte) (s : State) :
    ∃ t, finishRegFlag r v f s = .next t ∧ readReg 15 t = f ∧ (r ≠ 15 → readReg r t = v) ∧ t.pc = s.pc + 2 ∧
      OnlyRegisters [r, 15] s t ∧ OnlyChanges [.regs, .pc] s t := by
  refine ⟨_, rfl, readAt_writeAt_same _ 15 f, fun hr => ?_, rfl,
    (onlyRegisters_writeReg r v s).trans (onlyRegisters_writeReg 15 f _), onlyChanges_advance_setRegs _ s⟩
  simp [readAt_writeAt_ne _ hr]

/-- The end of a shift: the flag is written last, and the result stands in both registers where they are not register 15. -/
theorem finishShift_writes (a b : Reg) (v f : Byte) (s : State) :
    ∃ t, finishShift a b v f s = .next t ∧ readReg 15 t = f ∧ (a ≠ 15 → readReg a t = v) ∧ (b ≠ 15 → readReg b t = v) ∧
      t.pc = s.pc + 2 ∧ OnlyRegisters [a, b, 15] s t ∧ OnlyChanges [.regs, .pc] s t := by
  refine ⟨_, rfl, readAt_writeAt_same _ 15 f, fun ha => ?_, fun hb => ?_, rfl,
    (onlyRegisters_writeReg a v s).trans ((onlyRegisters_writeReg b v _).trans (onlyRegisters_writeReg 15 f _)),
    onlyChanges_advance_setRegs _ s⟩
  · simp [readAt_writeAt_ne _ ha, readAt_writeAt]
  · simp [readAt_writeAt_ne _ hb]

/-! ### Values and flags as numbers -/

section
variable (v w : Byte)

theorem toNat_flagOf (c : Bool) : (flagOf c).toNat = c.toNat := by cases c <;> rfl

theorem toNat_flagOf_decide (p : Prop) [Decidable p] : (flagOf (decide p)).toNat = if p then 1 else 0 := by
  rw [toNat_flagOf, Bool.toNat, Bool.cond_decide]

theorem toNat_flagOf_carryOut : (flagOf (carryOut v w)).toNat = if v.toNat + w.toNat > 255 then 1 else 0 :=
  toNat_flagOf_decide _

theorem toNat_flagOf_borrowOut : (flagOf (borrowOut v w)).toNat = if w.toNat > v.toNat then 1 else 0 :=
  toNat_flagOf_decide _

/-- The wrapped difference, written so that no subtraction of numbers is cut off at 0. -/
theorem toNat_sub_byte : (v - w).toNat = (256 + v.toNat - w.toNat) % 256 := by
  have := w.isLt
  rw [BitVec.toNat_sub]
  omega

theorem toNat_shiftRight_one : (v >>> 1).toNat = v.toNat / 2 := by
  rw [BitVec.toNat_ushiftRight, Nat.shiftRight_eq_div_pow, pow_one]

theorem toNat_shiftLeft_one : (v <<< 1).toNat = 2 * v.toNat % 256 := by
  rw [BitVec.toNat_shiftLeft, Nat.shiftLeft_eq, pow_one, Nat.mul_comm]

theorem toNat_shiftRightFlag : (shiftRightFlag v).toNat = v.toNat % 2 := by
  rw [shiftRightFlag, toNat_flagOf, BitVec.getLsbD, Nat.toNat_testBit, pow_zero, Nat.div_one]

/-- Bit 7 is the top bit of a byte (R153). -/
theorem toNat_shiftLeftFlag_bit7 : (shiftLeftFlag false v).toNat = v.toNat / 128 := by
  have := v.isLt
  have hbit : (v.getLsbD 7).toNat = v.toNat / 2 ^ 7 % 2 := Nat.toNat_testBit _ _
  simp only [shiftLeftFlag, Bool.false_eq_true, if_false, toNat_flagOf, hbit]
  omega

/-- The mask 8 keeps bit 3 in its place (R154). -/
theorem toNat_shiftLeftFlag_mask : (shiftLeftFlag true v).toNat = 8 * (v.toNat / 8 % 2) := by
  have hmask : v.toNat &&& 2 ^ 3 = (v.toNat.testBit 3).toNat * 2 ^ 3 := Nat.and_two_pow _ _
  rw [Nat.toNat_testBit, Nat.mul_comm] at hmask
  exact (BitVec.toNat_and _ _).trans hmask

end

/-! ### The shapes that several instructions share -/

/-- A value known by its bits, written by the end without a flag (R146 to R148). -/
theorem finishReg_writes_bits (r : Reg) {v : Byte} (s : State) {bit : Nat → Bool} (hbit : ∀ n, v.getLsbD n = bit n) :
    ∃ t, finishReg r v s = .next t ∧ (∀ n < 8, (readReg r t).getLsbD n = bit n) ∧ t.pc = s.pc + 2 ∧
      OnlyRegisters [r] s t ∧ OnlyChanges [.regs, .pc] s t := by
  obtain ⟨t, ht, hv, hrest⟩ := finishReg_writes r v s
  exact ⟨t, ht, fun n _ => by rw [hv, hbit], hrest⟩

/-- A subtraction `v - w` into register `r` with its borrow as the flag, for both of them (R150, R151). -/
theorem finishRegFlag_writes_sub (r : Reg) (v w : Byte) (s : State) :
    ∃ t, finishRegFlag r (v - w) (flagOf (borrowOut v w)) s = .next t ∧
      (readReg 15 t).toNat = (if w.toNat > v.toNat then 1 else 0) ∧
      (r ≠ 15 → (readReg r t).toNat = (256 + v.toNat - w.toNat) % 256) ∧
      t.pc = s.pc + 2 ∧ OnlyRegisters [r, 15] s t ∧ OnlyChanges [.regs, .pc] s t := by
  obtain ⟨t, ht, hf, hv, hrest⟩ := finishRegFlag_writes r (v - w) (flagOf (borrowOut v w)) s
  exact ⟨t, ht, by rw [hf, toNat_flagOf_borrowOut], fun hr => by rw [hv hr, toNat_sub_byte], hrest⟩

/-! ### The statements -/

/-- Settles O13: both are a register write and the default advance. -/
theorem setAndCopyWriteOneRegister : Obligations.SetAndCopyWriteOneRegister :=
  ⟨decodesTo_set, decodesTo_copy, fun reg k s => finishReg_writes reg k s,
    fun dst src s => finishReg_writes dst (readReg src s) s⟩

/-- Settles O14: the parameter chooses the first summand, and the sum of bytes wraps at 256. -/
theorem addAssignAddsAConstantWithoutAFlag : Obligations.AddAssignAddsAConstantWithoutAFlag := by
  refine ⟨decodesTo_addAssign, fun reg k s => ?_⟩
  obtain ⟨t, ht, hv, hrest⟩ :=
    finishReg_writes reg ((if s.legacy.addAssign then BitVec.ofNat 8 reg.val else readReg reg s) + k) s
  refine ⟨t, ht, fun hl => ?_, fun hl => ?_, hrest⟩
  · rw [hv, BitVec.toNat_add, hl]
    rfl
  · rw [hv, BitVec.toNat_add, hl, if_pos rfl, BitVec.toNat_ofNat, Nat.mod_add_mod]

/-- Settles O15: each writes the operation on the whole bytes, whose bits are the operation on the bits. -/
theorem bitwiseOpcodesWriteTheirFirstRegister : Obligations.BitwiseOpcodesWriteTheirFirstRegister :=
  ⟨fun a b => ⟨decodesTo_or a b, decodesTo_and a b, decodesTo_xor a b⟩,
    fun a _ s => finishReg_writes_bits a s fun _ => BitVec.getLsbD_or,
    fun a _ s => finishReg_writes_bits a s fun _ => BitVec.getLsbD_and,
    fun a _ s => finishReg_writes_bits a s fun _ => BitVec.getLsbD_xor⟩

/-- Settles O16: the sum of bytes wraps at 256, and the carry is the flag that is written last. -/
theorem addAssignRegWrapsAndFlagsTheCarry : Obligations.AddAssignRegWrapsAndFlagsTheCarry := by
  refine ⟨decodesTo_addAssignReg, fun a b s => ?_⟩
  obtain ⟨t, ht, hf, hv, hrest⟩ := finishRegFlag_writes a (readReg a s + readReg b s) _ s
  exact ⟨t, ht, by rw [hf, toNat_flagOf_carryOut], fun ha => by rw [hv ha, BitVec.toNat_add], hrest⟩

/-- Settles O17: the two subtractions are one operation with its operands exchanged. -/
theorem subtractionsWrapAndFlagTheBorrow : Obligations.SubtractionsWrapAndFlagTheBorrow :=
  ⟨fun a b => ⟨decodesTo_subAssignReg a b, decodesTo_subtract a b⟩,
    fun a b s => finishRegFlag_writes_sub a (readReg a s) (readReg b s) s,
    fun a b s => finishRegFlag_writes_sub a (readReg b s) (readReg a s) s⟩

/-- Settles O18: the halved value stands in both registers, and the bit shifted out is the flag that is written last. -/
theorem shiftRightHalvesIntoBothRegisters : Obligations.ShiftRightHalvesIntoBothRegisters := by
  refine ⟨decodesTo_shiftRight, fun a b s => ?_⟩
  obtain ⟨t, ht, hf, ha, hb, hrest⟩ := finishShift_writes a b (readReg b s >>> 1) (shiftRightFlag (readReg b s)) s
  exact ⟨t, ht, by rw [hf, toNat_shiftRightFlag], fun h => by rw [ha h, toNat_shiftRight_one],
    fun h => by rw [hb h, toNat_shiftRight_one], hrest⟩

/-- Settles O19: the doubled value stands in both registers, and the parameter chooses the flag that is written last. -/
theorem shiftLeftDoublesIntoBothRegisters : Obligations.ShiftLeftDoublesIntoBothRegisters := by
  refine ⟨decodesTo_shiftLeft, fun a b s => ?_⟩
  obtain ⟨t, ht, hf, ha, hb, hrest⟩ :=
    finishShift_writes a b (readReg b s <<< 1) (shiftLeftFlag s.legacy.shlMask (readReg b s)) s
  exact ⟨t, ht, fun hl => by rw [hf, hl, toNat_shiftLeftFlag_bit7], fun hl => by rw [hf, hl, toNat_shiftLeftFlag_mask],
    fun h => by rw [ha h, toNat_shiftLeft_one], fun h => by rw [hb h, toNat_shiftLeft_one], hrest⟩

end Sys2Proof.Machine
end

section
/-! PROOFS. The address register, Dump and Load (43_address_memory.md R170 to R175): the decoder on their words, the frames of their
updates, the end that the four forms of Dump and Load share, the legacy blocks as folds, and then the statements. -/

namespace Sys2Proof.Machine

/-! ### The words of the address and memory instructions decode to them (30_encoding.md R75) -/

section
variable (addr : Addr12) (reg : Reg)

theorem decodesTo_setAddressReg : DecodesTo (wordA 0xA#4 addr) (.setAddressReg addr) := decode_bytes _ (by simp [decodeWord])

/-- A word whose high nibble is 0xF is read by its low byte. -/
theorem decodesTo_of_decodeGroupF {kk : Byte} {i : Instr} (h : decodeGroupF (wordXK 0xF#4 reg kk) = some i) :
    DecodesTo (wordXK 0xF#4 reg kk) i := decode_bytes _ (by simpa [decodeWord] using h)

theorem decodesTo_incrementAddressReg : DecodesTo (wordXK 0xF#4 reg 0x1E#8) (.incrementAddressReg reg) :=
  decodesTo_of_decodeGroupF reg (by simp [decodeGroupF])

theorem decodesTo_dump : DecodesTo (wordXK 0xF#4 reg 0x55#8) (.dump reg) :=
  decodesTo_of_decodeGroupF reg (by simp [decodeGroupF])

theorem decodesTo_load : DecodesTo (wordXK 0xF#4 reg 0x65#8) (.load reg) :=
  decodesTo_of_decodeGroupF reg (by simp [decodeGroupF])

end

/-! ### The frames of the updates -/

theorem onlyChanges_setAr (v : Word) (s : State) : OnlyChanges [.ar] s (setAr v s) := by
  intro p hp
  cases p <;> simp_all [Part.same]

theorem onlyChanges_setMem (v : Memory) (s : State) : OnlyChanges [.mem] s (setMem v s) := by
  intro p hp
  cases p <;> simp_all [Part.same]

theorem onlyChanges_advance_setAr (v : Word) (s : State) : OnlyChanges [.ar, .pc] s (advance (setAr v s)) :=
  (onlyChanges_setAr v s).trans (onlyChanges_setPc _ _)

/-! ### The two ends of Dump and Load -/

/-- After the block has been moved, which touches neither `ar` nor `pc`, `ar` goes past the block and `pc` to the next word. -/
theorem advance_bumpAr_of_onlyChanges {parts : List Part} {s u : State} (reg : Reg) (h : OnlyChanges parts s u)
    (har : Part.ar ∉ parts) (hpc : Part.pc ∉ parts) :
    (advance (bumpAr reg u)).ar.toNat = (s.ar.toNat + reg.val + 1) % 65536 ∧ (advance (bumpAr reg u)).pc = s.pc + 2 ∧
      OnlyChanges (parts ++ [.ar, .pc]) s (advance (bumpAr reg u)) := by
  have hua : u.ar = s.ar := h .ar har
  have hup : u.pc = s.pc := h .pc hpc
  refine ⟨?_, ?_, h.trans (onlyChanges_advance_setAr _ u)⟩
  · simp [hua, Nat.add_assoc]
  · simp [hup]

/-- A block with a place outside: the whole effect is the fault record (R224). -/
theorem faults_of_eq_raiseFault {answer : Answer} {cause : FaultCause} {info : Word} {s : State}
    (h : answer = .next (raiseFault cause info s)) :
    ∃ t, answer = .next t ∧ t.fault = { valid := true, cause := cause, pc := s.pc, info := info } ∧ OnlyChanges [.fault] s t :=
  ⟨_, h, rfl, onlyChanges_setFault _ s⟩

/-! ### The legacy blocks as folds over their steps (R174, R175) -/

/-- A sequence whose every value comes from the one before it is the fold of its steps in turn. -/
theorem eq_foldl_range {α : Type} {f : Nat → α} {g : α → Nat → α} (h : ∀ n, f (n + 1) = g (f n) n) (n : Nat) :
    f n = (List.range n).foldl g (f 0) := by
  induction n with
  | zero => rfl
  | succ n ih => rw [List.range_succ, List.foldl_concat, ← ih, h]

theorem legacyDumpBlock_eq_foldl (rs : RegFile) (ar : Word) (n : Nat) :
    legacyDumpBlock rs ar n = (List.range n).foldl
      (fun x i => writeAt x (regNo ((ar.toNat + i) % 256)) (readAt x (regNo i))) rs :=
  eq_foldl_range (f := legacyDumpBlock rs ar) (fun _ => rfl) n

theorem legacyLoadBlock_eq_foldl (rs : RegFile) (ar : Word) (n : Nat) :
    legacyLoadBlock rs ar n = (List.range n).foldl
      (fun x i => writeAt x (regNo i) (readAt x (regNo ((ar.toNat + i) % 256)))) rs :=
  eq_foldl_range (f := legacyLoadBlock rs ar) (fun _ => rfl) n

/-! ### The statements -/

/-- Settles O20: one writes the zero-extended address to `ar`, the other the 16-bit sum. -/
theorem addressRegisterOpcodesWriteArOnly : Obligations.AddressRegisterOpcodesWriteArOnly := by
  refine ⟨decodesTo_setAddressReg, decodesTo_incrementAddressReg,
    fun addr s => ⟨_, rfl, toNat_zext16 addr, rfl, onlyChanges_advance_setAr _ s⟩,
    fun reg s => ⟨_, rfl, ?_, rfl, onlyChanges_advance_setAr _ s⟩⟩
  change (s.ar + (readReg reg s).setWidth 16).toNat = _
  rw [BitVec.toNat_add, BitVec.toNat_setWidth_of_le (by decide)]

/-- Settles O21: inside memory the stored block reads back as the registers, and `ar` does not wrap. -/
theorem dumpStoresRegistersAtAr : Obligations.DumpStoresRegistersAtAr := by
  refine ⟨decodesTo_dump, fun reg s hl hin => ?_, fun reg s hl hout => faults_of_eq_raiseFault (execDump_outside hl hout)⟩
  obtain ⟨har, hpc, hframe⟩ := advance_bumpAr_of_onlyChanges reg
    (onlyChanges_setMem (storeBlock s.mem s.regs s.ar.toNat (reg.val + 1)) s) (by decide) (by decide)
  refine ⟨_, execDump_inside hl hin, fun i hi => ?_, fun a ha => ?_, har.trans (Nat.mod_eq_of_lt (by omega)), hpc, hframe⟩
  · exact (read_storeBlock ..).trans (by simp [Nat.lt_succ_of_le hi])
  · exact (read_storeBlock ..).trans (if_neg (by omega))

/-- Settles O22: inside memory the loaded block holds the bytes, and `ar` does not wrap. -/
theorem loadReadsRegistersAtAr : Obligations.LoadReadsRegistersAtAr := by
  refine ⟨decodesTo_load, fun reg s hl hin => ?_, fun reg s hl hout => faults_of_eq_raiseFault (execLoad_outside hl hout)⟩
  obtain ⟨har, hpc, hframe⟩ := advance_bumpAr_of_onlyChanges reg
    (onlyChanges_setRegs (loadBlock s.mem s.regs s.ar.toNat (reg.val + 1)) s) (by decide) (by decide)
  refine ⟨_, execLoad_inside hl hin, fun i => ?_, har.trans (Nat.mod_eq_of_lt (by omega)), hpc, hframe⟩
  have hle : i.val < reg.val + 1 ↔ i ≤ reg := Nat.lt_succ_iff
  exact (readAt_loadBlock _ _ _ reg.isLt i).trans (by simp only [hle, readByte_eq, readReg_eq])

/-- Settles O23: the registers after the legacy Dump are its steps folded in turn, when every index is a register's. -/
theorem legacyDumpWritesIndexedRegistersInTurn : Obligations.LegacyDumpWritesIndexedRegistersInTurn := by
  refine ⟨decodesTo_dump, fun reg s hl hin => ?_,
    fun reg s hl hout => faults_of_eq_raiseFault (execDump_legacy_outside hl hout)⟩
  exact ⟨_, execDump_legacy_inside hl hin, fun r => congrArg (readAt · r) (legacyDumpBlock_eq_foldl ..),
    advance_bumpAr_of_onlyChanges reg (onlyChanges_setRegs _ s) (by decide) (by decide)⟩

/-- Settles O24: the registers after the legacy Load are its steps folded in turn, when every index is a register's. -/
theorem legacyLoadReadsIndexedRegisters : Obligations.LegacyLoadReadsIndexedRegisters := by
  refine ⟨decodesTo_load, fun reg s hl hin => ?_,
    fun reg s hl hout => faults_of_eq_raiseFault (execLoad_legacy_outside hl hout)⟩
  exact ⟨_, execLoad_legacy_inside hl hin, fun r => congrArg (readAt · r) (legacyLoadBlock_eq_foldl ..),
    advance_bumpAr_of_onlyChanges reg (onlyChanges_setRegs _ s) (by decide) (by decide)⟩

end Sys2Proof.Machine
end

section
/-! PROOFS. The timer instructions (44_timer_ops.md R190 to R192): the decoder on their words, the frames of a timer write and the
default advance, and then the statement. -/

namespace Sys2Proof.Machine

/-! ### The words of the timer instructions decode to them (30_encoding.md R75) -/

section
variable (reg : Reg)

theorem decodesTo_storeDelayTimer : DecodesTo (wordXK 0xF#4 reg 0x07#8) (.storeDelayTimer reg) :=
  decodesTo_of_decodeGroupF reg (by simp [decodeGroupF])

theorem decodesTo_setDelayTimer : DecodesTo (wordXK 0xF#4 reg 0x15#8) (.setDelayTimer reg) :=
  decodesTo_of_decodeGroupF reg (by simp [decodeGroupF])

theorem decodesTo_setSoundTimer : DecodesTo (wordXK 0xF#4 reg 0x18#8) (.setSoundTimer reg) :=
  decodesTo_of_decodeGroupF reg (by simp [decodeGroupF])

end

/-! ### The frames of the timer writes -/

theorem onlyChanges_setDt (v : Byte) (s : State) : OnlyChanges [.dt] s (setDt v s) := by
  intro p hp
  cases p <;> simp_all [Part.same]

theorem onlyChanges_setSt (v : Byte) (s : State) : OnlyChanges [.st] s (setSt v s) := by
  intro p hp
  cases p <;> simp_all [Part.same]

/-! ### The statement -/

/-- Settles O29: StoreDelayTimer ends as an ALU instruction without a flag does, with `dt` as the value; the other two are a timer
write and the default advance. -/
theorem timerOpcodesMoveARegister : Obligations.TimerOpcodesMoveARegister :=
  ⟨fun reg => ⟨decodesTo_storeDelayTimer reg, decodesTo_setDelayTimer reg, decodesTo_setSoundTimer reg⟩,
    fun reg s => finishReg_writes reg s.dt s,
    fun reg s => ⟨_, rfl, setDt_dt (readReg reg s) s, rfl, (onlyChanges_setDt _ s).trans (onlyChanges_setPc _ _)⟩,
    fun reg s => ⟨_, rfl, setSt_st (readReg reg s) s, rfl, (onlyChanges_setSt _ s).trans (onlyChanges_setPc _ _)⟩⟩

end Sys2Proof.Machine
end

section
/-! PROOFS. The device opcodes (45_device_noops.md R200 to R208): the decoder on their words, the whole effect of an announcement, and
then the statement. -/

namespace Sys2Proof.Machine

/-! ### The words of the device opcodes decode to them (30_encoding.md R75) -/

section
variable (reg a b : Reg) (k : Byte) (n : Nibble)

theorem decodesTo_clear : DecodesTo 0x00E0#16 .clear := rfl

theorem decodesTo_setRand : DecodesTo (wordXK 0xC#4 reg k) (.setRand reg k) := decode_bytes _ (by simp [decodeWord])

theorem decodesTo_draw : DecodesTo (wordXYN 0xD#4 a b n) (.draw a b n) := decode_bytes _ (by simp [decodeWord])

/-- A word whose high nibble is 0xE is read by its low byte. -/
theorem decodesTo_of_decodeGroupE {kk : Byte} {i : Instr} (h : decodeGroupE (wordXK 0xE#4 reg kk) = some i) :
    DecodesTo (wordXK 0xE#4 reg kk) i := decode_bytes _ (by simpa [decodeWord] using h)

theorem decodesTo_skipKeyPress : DecodesTo (wordXK 0xE#4 reg 0x9E#8) (.skipKeyPress reg) :=
  decodesTo_of_decodeGroupE reg (by simp [decodeGroupE])

theorem decodesTo_skipNoKeyPress : DecodesTo (wordXK 0xE#4 reg 0xA1#8) (.skipNoKeyPress reg) :=
  decodesTo_of_decodeGroupE reg (by simp [decodeGroupE])

theorem decodesTo_storeKeypress : DecodesTo (wordXK 0xF#4 reg 0x0A#8) (.storeKeypress reg) :=
  decodesTo_of_decodeGroupF reg (by simp [decodeGroupF])

theorem decodesTo_storeSpriteAddress : DecodesTo (wordXK 0xF#4 reg 0x29#8) (.storeSpriteAddress reg) :=
  decodesTo_of_decodeGroupF reg (by simp [decodeGroupF])

theorem decodesTo_binaryCodedDecimal : DecodesTo (wordXK 0xF#4 reg 0x33#8) (.binaryCodedDecimal reg) :=
  decodesTo_of_decodeGroupF reg (by simp [decodeGroupF])

end

/-! ### The whole effect of an announcement -/

/-- An instruction that executes as the announcement of itself has no effect but the intent port and the default advance (R208). -/
theorem announces_of_exec_eq_announce {i : Instr} (h : ∀ s, exec i s = announce i s) : Announces i := fun s =>
  ⟨advance (emitIntent i s), h s, rfl, rfl, ((onlyChanges_setPorts _ s).trans (onlyChanges_setPc _ _)).mono (by simp)⟩

/-! ### The statement -/

/-- Settles O35: each word decodes to its device opcode, and each of the eight executes as the announcement of itself. -/
theorem deviceOpcodesOnlyAnnounce : Obligations.DeviceOpcodesOnlyAnnounce :=
  ⟨⟨decodesTo_clear, announces_of_exec_eq_announce fun _ => rfl⟩,
    fun reg k => ⟨decodesTo_setRand reg k, announces_of_exec_eq_announce fun _ => rfl⟩,
    fun a b n => ⟨decodesTo_draw a b n, announces_of_exec_eq_announce fun _ => rfl⟩,
    fun reg => ⟨decodesTo_skipKeyPress reg, announces_of_exec_eq_announce fun _ => rfl⟩,
    fun reg => ⟨decodesTo_skipNoKeyPress reg, announces_of_exec_eq_announce fun _ => rfl⟩,
    fun reg => ⟨decodesTo_storeKeypress reg, announces_of_exec_eq_announce fun _ => rfl⟩,
    fun reg => ⟨decodesTo_storeSpriteAddress reg, announces_of_exec_eq_announce fun _ => rfl⟩,
    fun reg => ⟨decodesTo_binaryCodedDecimal reg, announces_of_exec_eq_announce fun _ => rfl⟩⟩

end Sys2Proof.Machine
end

section
/-! PROOFS. Faults and the timer unit (60_exceptions.md R223, R224, R240): an instruction keeps the fault record or is a fault entry,
at the parameters of an argument too; so a cycle that faults is a fault entry after a write of its ports. Then the condition of each
cause, and a cycle as its execute phase and the decay; the statements follow. -/

namespace Sys2Proof.Machine

/-! ### An instruction keeps the fault record or is a fault entry (R224) -/

/-- The fault record is as it was, or the whole effect is a fault entry with a named cause. -/
def KeepsFaultOrRaises (s t : State) : Prop :=
  t.fault = s.fault ∨ ∃ cause info, cause ≠ .none ∧ t = raiseFault cause info s

section
variable {p : Params} {i : Instr} {s t : State}

theorem exec_keepsFaultOrRaises (h : exec i s = .next t) : KeepsFaultOrRaises s t := by
  rcases exec_completesOrFaults h with ⟨hf, -⟩ | ⟨cause, info, hn, -, ht, -⟩
  · exact .inl hf
  · exact .inr ⟨cause, info, hn, ht⟩

/-- The shape of every check of R223: a fault entry, or an update that leaves the fault record alone. -/
theorem keepsFaultOrRaises_of_check {c : Prop} [Decidable c] {cause : FaultCause} {info : Word} {u : State}
    (h : (if c then .next (raiseFault cause info s) else .next u : Answer) = .next t) (hn : cause ≠ .none)
    (hu : u.fault = s.fault) : KeepsFaultOrRaises s t := by
  split at h
  · cases h
    exact .inr ⟨cause, info, hn, rfl⟩
  · cases h
    exact .inl hu

/-- Five instructions use a parameter, and three of these have a check. -/
theorem execWith_keepsFaultOrRaises (h : execWith p i s = .next t) : KeepsFaultOrRaises s t := by
  cases i
  case callFunction => exact keepsFaultOrRaises_of_check h (by decide) rfl
  case dump | load =>
    simp only [execWith, dumpWith, loadWith] at h
    split at h
    · exact keepsFaultOrRaises_of_check h (by decide) rfl
    · exact keepsFaultOrRaises_of_check h (by decide) rfl
  case addAssign | shiftLeft =>
    cases h
    exact .inl rfl
  all_goals
    simp only [execWith] at h
    exact exec_keepsFaultOrRaises h

end

/-! ### A cycle that faults is a fault entry after a write of its ports -/

section
variable {execute : Instr → State → Answer} {size : Nat} {timers : State → State} {decoder : Byte → Byte → Decoded} {s t : State}

/-- The timers are not reached on a cycle that faults, and before the fault a cycle has written its ports only. -/
theorem cycleBy_raises (hexec : ∀ {i s t}, execute i s = .next t → KeepsFaultOrRaises s t)
    (htimers : ∀ s, (timers s).fault = s.fault) (hv : s.fault.valid = false)
    (h : cycleBy execute size timers decoder s = .next t) (ht : t.fault.valid = true) :
    ∃ cause info ports, cause ≠ .none ∧ t = raiseFault cause info (setPorts ports s) := by
  rcases cycleBy_cases h with ⟨hs, -⟩ | ⟨-, -, rfl⟩ | ⟨-, -, b0, b1, -, rfl⟩ | ⟨-, -, i, u, -, hu, ⟨hf, rfl⟩ | ⟨hf, rfl⟩⟩
  · exact absurd hs (by simp [hv])
  · exact ⟨.fetchRange, s.pc, _, by decide, rfl⟩
  · exact absurd ht (by simp [htimers, hv])
  · rcases hexec hu with hk | ⟨cause, info, hn, rfl⟩
    · exact absurd hf (by simp [hk, hv])
    · exact ⟨cause, info, _, hn, rfl⟩
  · exact absurd ht (by simp [htimers, hf])

end

/-! ### The condition of each cause (R223) -/

section
variable {s t : State}

/-- The ports take no part in the conditions. -/
theorem faultCase_fetched {d : Decoded} {info : Word} {cause : FaultCause} :
    FaultCase (fetched d s) info cause ↔ FaultCase s info cause := by
  cases cause <;> rfl

/-- A Dump or Load meets a condition of R223, or its whole block is where its parameter says it must be. -/
theorem faultCase_or_block_inside {reg : Reg} (hp : s.pc.toNat ≤ 4094)
    (hd : fetchedInstr s = .op (.dump reg) ∨ fetchedInstr s = .op (.load reg)) :
    (∃ cause info, FaultCase s info cause) ∨ (s.legacy.dumpLoad = false ∧ s.ar.toNat + reg.val ≤ 4095) ∨
    (s.legacy.dumpLoad = true ∧ ∀ n ≤ reg.val, (s.ar.toNat + n) % 256 ≤ 15) := by
  cases hl : s.legacy.dumpLoad with
  | false =>
    by_cases hout : s.ar.toNat + reg.val > 4095
    · exact .inl ⟨.memRange, s.ar, hp, hl, ⟨reg, hd, hout⟩, rfl⟩
    · exact .inr (.inl ⟨rfl, Nat.le_of_not_lt hout⟩)
  | true =>
    by_cases hout : ∃ n ≤ reg.val, (s.ar.toNat + n) % 256 > 15
    · exact .inl ⟨.legacyIndexRange, s.ar, hp, hl, ⟨reg, hd, hout⟩, rfl⟩
    · exact .inr (.inr ⟨rfl, fun n hn => Nat.le_of_not_lt fun hx => hout ⟨n, hn, hx⟩⟩)

theorem execReturn_fault (h : execReturn s = .next t) : t.fault = s.fault := by
  rcases List.eq_nil_or_concat s.stack with hs | ⟨rest, top, hs⟩
  · cases (execReturn_empty hs).symm.trans h
    rfl
  · cases (execReturn_pop (hs.trans List.concat_eq_append)).symm.trans h
    rfl

/-- The fetched instruction meets a condition of R223 or keeps the fault record: only CallFunction, Dump and Load have a check. -/
theorem faultCase_or_exec_fault {i : Instr} (hp : s.pc.toNat ≤ 4094) (hd : fetchedInstr s = .op i) (h : exec i s = .next t) :
    (∃ cause info, FaultCase s info cause) ∨ t.fault = s.fault := by
  cases i
  case ret => exact .inr (execReturn_fault h)
  case callFunction addr =>
    by_cases hs : s.stack.length = 24
    · exact .inl ⟨.stackOverflow, zext16 addr, hp, addr, hd, hs, rfl⟩
    · cases (execCallFunction_push addr hs).symm.trans h
      exact .inr rfl
  case dump reg =>
    rcases faultCase_or_block_inside hp (.inl hd) with hc | ⟨hl, hin⟩ | ⟨hl, hin⟩
    · exact .inl hc
    · cases (execDump_inside hl hin).symm.trans h
      exact .inr rfl
    · cases (execDump_legacy_inside hl hin).symm.trans h
      exact .inr rfl
  case load reg =>
    rcases faultCase_or_block_inside hp (.inr hd) with hc | ⟨hl, hin⟩ | ⟨hl, hin⟩
    · exact .inl hc
    · cases (execLoad_inside hl hin).symm.trans h
      exact .inr rfl
    · cases (execLoad_legacy_inside hl hin).symm.trans h
      exact .inr rfl
  all_goals
    cases h
    exact .inr rfl

/-- A step that ends halted meets the condition of a cause. -/
theorem faultCase_of_step (hv : s.fault.valid = false) (h : step s = .next t) (ht : t.fault.valid = true) :
    ∃ cause info, FaultCase s info cause := by
  rcases cycle_cases h with ⟨hs, -⟩ | ⟨-, hp, -⟩ | ⟨-, -, b0, b1, -, rfl⟩ | ⟨-, hp, i, u, hd, hu, ⟨hf, -⟩ | ⟨hf, rfl⟩⟩
  · exact absurd hs (by simp [hv])
  · exact ⟨.fetchRange, s.pc, hp, rfl⟩
  · exact absurd ht (by simp [hv])
  · rcases faultCase_or_exec_fault (s := fetched (.op i) s) hp hd hu with ⟨cause, info, hc⟩ | hk
    · exact ⟨cause, info, faultCase_fetched.1 hc⟩
    · exact absurd hf (by simp [hk, hv])
  · exact absurd ht (by simp [hf])

/-- When the fetched instruction is a fault entry, so is the step. -/
theorem step_raises_of_exec {i : Instr} {cause : FaultCause} {info : Word} (hv : s.fault.valid = false)
    (hp : s.pc.toNat ≤ 4094) (hd : fetchedInstr s = .op i)
    (h : exec i (fetched (.op i) s) = .next (raiseFault cause info (fetched (.op i) s))) :
    ∃ ports, step s = .next (raiseFault cause info (setPorts ports s)) :=
  ⟨_, (cycle_of_op hv hp hd).trans (congrArg (endCycle timerDriver) h)⟩

/-- The condition of a cause makes the step a fault entry with that cause and its info. -/
theorem step_raises_of_faultCase {info : Word} {cause : FaultCause} (hv : s.fault.valid = false) (h : FaultCase s info cause) :
    ∃ ports, step s = .next (raiseFault cause info (setPorts ports s)) := by
  cases cause with
  | none => exact h.elim
  | fetchRange =>
    obtain ⟨hp, rfl⟩ := h
    exact ⟨_, cycle_of_fetchOutside hv hp⟩
  | memRange =>
    obtain ⟨hp, hl, ⟨reg, hd | hd, hout⟩, rfl⟩ := h
    · exact step_raises_of_exec hv hp hd (execDump_outside hl hout)
    · exact step_raises_of_exec hv hp hd (execLoad_outside hl hout)
  | stackOverflow =>
    obtain ⟨hp, addr, hd, hs, rfl⟩ := h
    exact step_raises_of_exec hv hp hd (execCallFunction_full addr hs)
  | legacyIndexRange =>
    obtain ⟨hp, hl, ⟨reg, hd | hd, hout⟩, rfl⟩ := h
    · exact step_raises_of_exec hv hp hd (execDump_legacy_outside hl hout)
    · exact step_raises_of_exec hv hp hd (execLoad_legacy_outside hl hout)

end

/-! ### A cycle without a fault is its execute phase and then the decay (R109, R240) -/

theorem onlyChanges_timerDecay (dec : Nat) (s : State) : OnlyChanges [.dt, .st] s (timerDecay dec s) :=
  (onlyChanges_setDt _ s).trans (onlyChanges_setSt _ _)

section
variable {p : Params} {decoder : Byte → Byte → Decoded} {dec : Nat} {s t u : State}

theorem executePhaseWith_of_op {i : Instr} (hd : decoder (fetchByte0 s) (fetchByte1 s) = .op i)
    (hu : execWith p i (fetched (.op i) s) = .next u) : ExecutePhaseWith p decoder s u := by
  rw [ExecutePhaseWith, hd]
  exact hu

theorem executePhaseWith_of_data {b0 b1 : Byte} (hd : decoder (fetchByte0 s) (fetchByte1 s) = .data b0 b1) :
    ExecutePhaseWith p decoder s (execDataWord (wordOfBytes (fetchByte0 s) (fetchByte1 s)) (fetched (.data b0 b1) s)) := by
  rw [ExecutePhaseWith, hd]
  rfl

theorem cycleWith_decays (h : cycleWith p decoder dec s = .next t) (ht : t.fault.valid = false) :
    ∃ u, ExecutePhaseWith p decoder s u ∧ t = timerDecay dec u := by
  rcases cycleBy_cases h with ⟨hs, rfl⟩ | ⟨-, -, rfl⟩ | ⟨-, -, b0, b1, hd, rfl⟩ | ⟨-, -, i, u, hd, hu, ⟨hf, rfl⟩ | ⟨-, rfl⟩⟩
  · exact absurd hs (by simp [ht])
  · exact absurd ht (by simp)
  · exact ⟨_, executePhaseWith_of_data hd, rfl⟩
  · exact absurd hf (by simp [ht])
  · exact ⟨u, executePhaseWith_of_op hd hu, rfl⟩

/-- A cycle of a halted engine is no cycle, and one that faults is a fault entry. -/
theorem cycleWith_keeps_timers_of_halted (h : cycleWith p decoder dec s = .next t) (ht : t.fault.valid = true) :
    t.dt = s.dt ∧ t.st = s.st := by
  cases hv : s.fault.valid with
  | true =>
    cases (cycleBy_of_halted hv).symm.trans h
    exact ⟨rfl, rfl⟩
  | false =>
    obtain ⟨cause, info, ports, -, rfl⟩ :=
      cycleBy_raises (execute := execWith p) (timers := timerDecay dec) execWith_keepsFaultOrRaises (fun _ => rfl) hv h ht
    exact ⟨rfl, rfl⟩

end

/-! ### The statements -/

/-- Settles O40: a fault entry is a write of the record, and a cycle that faults is one after a write of its ports. -/
theorem faultsArePrecise : Obligations.FaultsArePrecise := by
  refine ⟨fun cause info s => ⟨rfl, onlyChanges_setFault _ s⟩, fun decoder s t hv h ht => ?_⟩
  obtain ⟨cause, info, ports, hn, rfl⟩ := cycleBy_raises exec_keepsFaultOrRaises timerDriver_fault hv h ht
  exact ⟨cause, info, hn, rfl, ((onlyChanges_setPorts ports s).trans (onlyChanges_setFault _ _)).mono (by simp)⟩

/-- Settles O41: a step that ends halted meets a condition, and a condition makes the step its fault entry. -/
theorem faultsExactlyOnTheirConditions : Obligations.FaultsExactlyOnTheirConditions := by
  refine ⟨⟨rfl, rfl⟩, ⟨rfl, rfl, rfl, rfl, rfl⟩, fun s t hv h => ⟨faultCase_of_step hv h, fun cause info hc => ?_⟩⟩
  obtain ⟨ports, hstep⟩ := step_raises_of_faultCase hv hc
  cases hstep.symm.trans h
  rfl

/-- Settles O59: the decay of a timer is the difference clamped at 0, and a cycle that ends halted does not reach it. -/
theorem decaySubtractsTheSuppliedDecrement : Obligations.DecaySubtractsTheSuppliedDecrement := by
  refine fun p decoder dec s t h => ⟨fun ht => ?_, cycleWith_keeps_timers_of_halted h⟩
  obtain ⟨u, hu, rfl⟩ := cycleWith_decays h ht
  exact ⟨u, hu, toNat_decay dec u.dt, toNat_decay dec u.st, onlyChanges_timerDecay dec u⟩

end Sys2Proof.Machine
end

section
/-! PROOFS. Construction with an image (70_reset_and_hazards.md R250 to R253): what the program load puts at an address, then the
statement. -/

namespace Sys2Proof.Machine

/-! ### The program load (R252, R253) -/

/-- The load fills the window from LOAD_BASE to LOAD_LIMIT as far as the image reaches, and every other byte is 0. -/
theorem read_loadImage (p : Params) (img : List Byte) (a : Nat) :
    Memory.read (loadImage p img) a =
      if p.loadBase ≤ a ∧ a < p.loadLimit ∧ a < p.loadBase + img.length then img.getD (a - p.loadBase) 0 else 0 := by
  have hwindow : (p.loadBase ≤ a ∧ a < p.loadBase + (img.take (p.loadLimit - p.loadBase)).length) ↔
      p.loadBase ≤ a ∧ a < p.loadLimit ∧ a < p.loadBase + img.length := by
    rw [List.length_take]
    omega
  rw [loadImage, read_loadBytes]
  simp only [hwindow]
  split
  · have hi : a - p.loadBase < p.loadLimit - p.loadBase := by omega
    simp only [List.getD_eq_getElem?_getD, List.getElem?_take_of_lt hi]
  · rfl

/-- The image is all that construction adds to reset, which has the parameters and `pc` of construction (R251). -/
theorem construct_eq_setMem (img : List Byte) : construct img = setMem (loadImage hardwareParams img) State.reset := rfl

/-- At this hardware's sizes the window is 0x200 to 0xE9F. -/
theorem readByte_construct (img : List Byte) (a : Nat) :
    readByte a (construct img) =
      if 0x200 ≤ a ∧ a < 0xEA0 ∧ a < 0x200 + img.length then img.getD (a - 0x200) 0 else 0 :=
  read_loadImage hardwareParams img a

/-! ### The statement -/

/-- Settles O48: the addresses of the first clause are those of the window, the addresses of the second are not, and construction
is a write of memory to the state at reset. -/
theorem imageLandsAt0x200Truncated : Obligations.ImageLandsAt0x200Truncated := by
  refine fun img a => ⟨fun i hi hcap ha => ?_, fun hout => ?_, rfl, rfl, ?_⟩
  · subst ha
    rw [readByte_construct, if_pos (by omega), Nat.add_sub_cancel_left]
  · rw [readByte_construct, if_neg (by omega)]
  · rw [construct_eq_setMem]
    exact onlyChanges_setMem _ State.reset

end Sys2Proof.Machine
end

section
/-! PROOFS. Encoding (30_encoding.md R70 to R76): a word is the word of its own fields, so what the decoder answers encodes to the
word it was given; and the fields as numbers, by which the data words are those of the list. -/

namespace Sys2Proof.Machine

/-! ### A word from its fields, when a field is known (R73) -/

section
variable {w : Word} {op n : Nibble} {kk : Byte}

theorem wordA_of_op (h : (opField w).toNat = op.toNat) : wordA op (nnnField w) = w := by
  rw [← BitVec.eq_of_toNat_eq h, wordA_fields]

theorem wordXK_of_op (h : (opField w).toNat = op.toNat) : wordXK op (xField w) (kkField w) = w := by
  rw [← BitVec.eq_of_toNat_eq h, wordXK_fields]

theorem wordXK_of_op_kk (h : (opField w).toNat = op.toNat) (hkk : (kkField w).toNat = kk.toNat) : wordXK op (xField w) kk = w := by
  rw [← BitVec.eq_of_toNat_eq hkk, wordXK_of_op h]

theorem wordXYN_of_op (h : (opField w).toNat = op.toNat) : wordXYN op (xField w) (yField w) (nField w) = w := by
  rw [← BitVec.eq_of_toNat_eq h, wordXYN_fields]

theorem wordXYN_of_op_n (h : (opField w).toNat = op.toNat) (hn : (nField w).toNat = n.toNat) :
    wordXYN op (xField w) (yField w) n = w := by
  rw [← BitVec.eq_of_toNat_eq hn, wordXYN_of_op h]

end

/-! ### What the decoder answers is well-formed and encodes to its word (R75) -/

/-- The instruction is one that the encoder writes as `w`. -/
def IsReadingOf (w : Word) (i : Instr) : Prop := i.wf = true ∧ encode i = w

section
variable {w : Word} {i : Instr}

/-- 00E0 and 00EE are taken first, so the address of a Call is neither of theirs. -/
theorem decodeGroup0_isReadingOf (hop : (opField w).toNat = 0) (h : decodeGroup0 w = some i) : IsReadingOf w i := by
  have hw : wordA 0x0#4 (nnnField w) = w := wordA_of_op hop
  unfold decodeGroup0 at h
  split at h
  · cases h
    exact ⟨rfl, Eq.symm ‹_›⟩
  · split at h
    · cases h
      exact ⟨rfl, Eq.symm ‹_›⟩
    · rename_i hClear hRet
      cases h
      have hClear' : nnnField w ≠ 0x0E0#12 := fun e => hClear (by rw [← hw, e]; rfl)
      have hRet' : nnnField w ≠ 0x0EE#12 := fun e => hRet (by rw [← hw, e]; rfl)
      exact ⟨by simp [Instr.wf, hClear', hRet'], hw⟩

theorem decodeGroup8_isReadingOf (hop : (opField w).toNat = 8) (h : decodeGroup8 w = some i) : IsReadingOf w i := by
  unfold decodeGroup8 at h
  split at h
  case h_10 => cases h
  all_goals
    cases h
    exact ⟨rfl, wordXYN_of_op_n hop ‹_›⟩

theorem decodeGroupE_isReadingOf (hop : (opField w).toNat = 0xE) (h : decodeGroupE w = some i) : IsReadingOf w i := by
  unfold decodeGroupE at h
  split at h
  case h_3 => cases h
  all_goals
    cases h
    exact ⟨rfl, wordXK_of_op_kk hop ‹_›⟩

theorem decodeGroupF_isReadingOf (hop : (opField w).toNat = 0xF) (h : decodeGroupF w = some i) : IsReadingOf w i := by
  unfold decodeGroupF at h
  split at h
  case h_10 => cases h
  all_goals
    cases h
    exact ⟨rfl, wordXK_of_op_kk hop ‹_›⟩

/-- Rows 8 and 20: a word whose low nibble is 0, or a data word. -/
theorem nField_zero_isReadingOf {op : Nibble} {j : Instr} (hop : (opField w).toNat = op.toNat) (hwf : j.wf = true)
    (hj : encode j = wordXYN op (xField w) (yField w) 0x0#4) (h : (if nField w = 0 then some j else none) = some i) :
    IsReadingOf w i := by
  split at h
  · rename_i hn
    cases h
    exact ⟨hwf, hj.trans (wordXYN_of_op_n hop (by rw [hn]; rfl))⟩
  · cases h

/-- The first nibble names the row or the group of rows. -/
theorem decodeWord_isReadingOf (h : decodeWord w = some i) : IsReadingOf w i := by
  unfold decodeWord at h
  split at h
  case h_17 => cases h
  all_goals rename_i hop
  case h_1 => exact decodeGroup0_isReadingOf hop h
  case h_9 => exact decodeGroup8_isReadingOf hop h
  case h_15 => exact decodeGroupE_isReadingOf hop h
  case h_16 => exact decodeGroupF_isReadingOf hop h
  case h_6 => exact nField_zero_isReadingOf (op := 0x5#4) hop rfl rfl h
  case h_10 => exact nField_zero_isReadingOf (op := 0x9#4) hop rfl rfl h
  case h_2 | h_3 | h_11 | h_12 =>
    cases h
    exact ⟨rfl, wordA_of_op hop⟩
  case h_14 =>
    cases h
    exact ⟨rfl, wordXYN_of_op hop⟩
  all_goals
    cases h
    exact ⟨rfl, wordXK_of_op hop⟩

end

/-! ### The fields as numbers, and the data words (R72, R76) -/

section
variable (w : Word)

theorem toNat_opField : (opField w).toNat = w.toNat / 4096 := by
  have := w.isLt
  rw [opField, BitVec.extractLsb'_toNat, Nat.shiftRight_eq_div_pow, Nat.mod_eq_of_lt (by omega)]

theorem toNat_kkField : (kkField w).toNat = w.toNat % 256 := BitVec.extractLsb'_toNat ..

theorem toNat_nField : (nField w).toNat = w.toNat % 16 := BitVec.extractLsb'_toNat ..

theorem toNat_wordOfBytes (b0 b1 : Byte) : (wordOfBytes b0 b1).toNat = b0.toNat * 256 + b1.toNat := by
  rw [wordOfBytes, BitVec.toNat_append, ← Nat.shiftLeft_add_eq_or_of_lt b1.isLt, Nat.shiftLeft_eq]

end

/-! ### The words that no row matches (R76) -/

theorem decodeGroup0_ne_none (w : Word) : decodeGroup0 w ≠ none := by
  unfold decodeGroup0
  split
  · nofun
  · split <;> nofun

/-- Nine low nibbles have a row; the other seven are listed. -/
theorem decodeGroup8_eq_none_iff (w : Word) :
    decodeGroup8 w = none ↔ (nField w).toNat ∈ [8, 9, 0xA, 0xB, 0xC, 0xD, 0xF] := by
  have hlt : (nField w).toNat < 16 := (nField w).isLt
  unfold decodeGroup8
  split
  case h_10 =>
    simp only [imp_false] at *
    simp only [List.mem_cons, List.not_mem_nil, or_false, true_iff]
    omega
  all_goals simp [*]

theorem decodeGroupE_eq_none_iff (w : Word) : decodeGroupE w = none ↔ (kkField w).toNat ∉ [0x9E, 0xA1] := by
  unfold decodeGroupE
  split <;> simp_all

theorem decodeGroupF_eq_none_iff (w : Word) :
    decodeGroupF w = none ↔ (kkField w).toNat ∉ [0x07, 0x0A, 0x15, 0x18, 0x1E, 0x29, 0x33, 0x55, 0x65] := by
  unfold decodeGroupF
  split <;> simp_all

/-- The first nibble names the clause of the list, or is in none of them. -/
theorem decodeWord_eq_none_iff (w : Word) : decodeWord w = none ↔ IsDataWord w.toNat := by
  have hlt : (opField w).toNat < 16 := (opField w).isLt
  have hzero : nField w = 0#4 ↔ (nField w).toNat = 0 := BitVec.toNat_inj.symm
  simp only [IsDataWord, ← toNat_opField, ← toNat_nField, ← toNat_kkField]
  unfold decodeWord
  split
  case h_17 =>
    simp only [imp_false] at *
    omega
  all_goals rename_i hop
  case h_1 => simp [hop, decodeGroup0_ne_none]
  case h_6 | h_10 => simp [hop, hzero]
  case h_9 => simp [hop, decodeGroup8_eq_none_iff]
  case h_15 => simp [hop, decodeGroupE_eq_none_iff]
  case h_16 => simp [hop, decodeGroupF_eq_none_iff]
  all_goals simp [hop]

/-! ### The two bytes and their word -/

section
variable {b0 b1 : Byte} {i : Instr}

theorem decode_eq_op_iff : decode b0 b1 = .op i ↔ decodeWord (wordOfBytes b0 b1) = some i := by
  unfold decode
  split <;> simp [*]

theorem decode_eq_data_of_none (h : decodeWord (wordOfBytes b0 b1) = none) : decode b0 b1 = .data b0 b1 := by
  simp [decode, h]

end

/-! ### The statements -/

/-- Settles O2, row by row. -/
theorem decodeOfEncodeIsTheInstruction : Obligations.DecodeOfEncodeIsTheInstruction := by
  intro i hwf
  cases i with
  | clear => exact decodesTo_clear
  | ret => rfl
  | call addr =>
    obtain ⟨hClear, hRet⟩ : addr ≠ 0x0E0#12 ∧ addr ≠ 0x0EE#12 := by simpa [Instr.wf] using hwf
    exact decodesTo_call hClear hRet
  | goto addr => exact decodesTo_goto addr
  | callFunction addr => exact decodesTo_callFunction addr
  | skipEq reg k => exact decodesTo_skipEq reg k
  | skipNEq reg k => exact decodesTo_skipNEq reg k
  | skipEqReg a b => exact decodesTo_skipEqReg a b
  | set reg k => exact decodesTo_set reg k
  | addAssign reg k => exact decodesTo_addAssign reg k
  | copy dst src => exact decodesTo_copy dst src
  | or a b => exact decodesTo_or a b
  | and a b => exact decodesTo_and a b
  | xor a b => exact decodesTo_xor a b
  | addAssignReg a b => exact decodesTo_addAssignReg a b
  | subAssignReg a b => exact decodesTo_subAssignReg a b
  | shiftRight a b => exact decodesTo_shiftRight a b
  | subtract a b => exact decodesTo_subtract a b
  | shiftLeft a b => exact decodesTo_shiftLeft a b
  | skipNEqReg a b => exact decodesTo_skipNEqReg a b
  | setAddressReg addr => exact decodesTo_setAddressReg addr
  | jumpOffset ignored => exact decodesTo_jumpOffset ignored
  | setRand reg k => exact decodesTo_setRand reg k
  | draw a b k => exact decodesTo_draw a b k
  | skipKeyPress reg => exact decodesTo_skipKeyPress reg
  | skipNoKeyPress reg => exact decodesTo_skipNoKeyPress reg
  | storeDelayTimer reg => exact decodesTo_storeDelayTimer reg
  | storeKeypress reg => exact decodesTo_storeKeypress reg
  | setDelayTimer reg => exact decodesTo_setDelayTimer reg
  | setSoundTimer reg => exact decodesTo_setSoundTimer reg
  | incrementAddressReg reg => exact decodesTo_incrementAddressReg reg
  | storeSpriteAddress reg => exact decodesTo_storeSpriteAddress reg
  | binaryCodedDecimal reg => exact decodesTo_binaryCodedDecimal reg
  | dump reg => exact decodesTo_dump reg
  | load reg => exact decodesTo_load reg

/-- Settles O3: what the decoder answers on a word encodes to that word, row by row. -/
theorem encodeOfDecodeIsTheWord : Obligations.EncodeOfDecodeIsTheWord :=
  fun _ _ _ h => decodeWord_isReadingOf (decode_eq_op_iff.1 h)

/-- Settles O4: no row matches exactly the words of the list, whose clauses speak of the word's fields as numbers. -/
theorem dataWordsAreTheListedWords : Obligations.DataWordsAreTheListedWords := by
  intro b0 b1
  rw [← toNat_wordOfBytes, ← decodeWord_eq_none_iff]
  refine ⟨decode_eq_data_of_none, fun h => ?_⟩
  obtain ⟨i, hi⟩ := Option.ne_none_iff_exists'.1 h
  exact ⟨i, decode_eq_op_iff.2 hi⟩

/-- Settles O1: each word is one closed evaluation of the decoder. -/
theorem decodesWordsOfEachFamily : Obligations.DecodesWordsOfEachFamily :=
  ⟨rfl, rfl, rfl, rfl, rfl, rfl, rfl, rfl, rfl, rfl, rfl, rfl, rfl, rfl, rfl, rfl, rfl⟩

end Sys2Proof.Machine
end

section
/-! PROOFS. What an instruction does, said once for all 35: what each instruction with a branch can answer, that every instruction
answers, which parts it writes, and the exact change of memory, the stack and the registers. Then the statements about `exec`. -/

namespace Sys2Proof.Machine

/-! ### The answers of the four instructions with a branch -/

section
variable {reg : Reg} {addr : Addr12} {s t : State}

theorem execReturn_cases (h : execReturn s = .next t) :
    (s.stack = [] ∧ t = advance (emitDiag (.emptyReturn s.pc) s)) ∨
    ∃ rest top, s.stack = rest ++ [top] ∧ t = setPc (top + 2) (setStack rest s) := by
  rcases List.eq_nil_or_concat' s.stack with hs | ⟨rest, top, hs⟩
  · cases (execReturn_empty hs).symm.trans h
    exact .inl ⟨hs, rfl⟩
  · cases (execReturn_pop hs).symm.trans h
    exact .inr ⟨rest, top, hs, rfl⟩

theorem execCallFunction_cases (h : execCallFunction addr s = .next t) :
    (s.stack.length = 24 ∧ t = raiseFault .stackOverflow (zext16 addr) s) ∨
    (s.stack.length ≠ 24 ∧ t = setPc (zext16 addr) (push s.pc s)) := by
  by_cases hs : s.stack.length = 24
  · cases (execCallFunction_full addr hs).symm.trans h
    exact .inl ⟨hs, rfl⟩
  · cases (execCallFunction_push addr hs).symm.trans h
    exact .inr ⟨hs, rfl⟩

/-- The parameter and the check of a block of Dump or Load. -/
theorem block_cases (reg : Reg) (s : State) :
    (s.legacy.dumpLoad = false ∧ s.ar.toNat + reg.val > 4095) ∨ (s.legacy.dumpLoad = false ∧ s.ar.toNat + reg.val ≤ 4095) ∨
    (s.legacy.dumpLoad = true ∧ ∃ i ≤ reg.val, (s.ar.toNat + i) % 256 > 15) ∨
    (s.legacy.dumpLoad = true ∧ ∀ i ≤ reg.val, (s.ar.toNat + i) % 256 ≤ 15) := by
  cases hl : s.legacy.dumpLoad with
  | false => simp [Nat.lt_or_ge]
  | true => simpa using (em (∀ i ≤ reg.val, (s.ar.toNat + i) % 256 ≤ 15)).symm

theorem execDump_cases (h : execDump reg s = .next t) :
    (∃ cause, t = raiseFault cause s.ar s) ∨
    (s.legacy.dumpLoad = false ∧ s.ar.toNat + reg.val ≤ 4095 ∧
      t = advance (bumpAr reg (setMem (storeBlock s.mem s.regs s.ar.toNat (reg.val + 1)) s))) ∨
    (s.legacy.dumpLoad = true ∧ (∀ i ≤ reg.val, (s.ar.toNat + i) % 256 ≤ 15) ∧
      t = advance (bumpAr reg (setRegs (legacyDumpBlock s.regs s.ar (reg.val + 1)) s))) := by
  rcases block_cases reg s with ⟨hl, hb⟩ | ⟨hl, hb⟩ | ⟨hl, hb⟩ | ⟨hl, hb⟩
  · cases (execDump_outside hl hb).symm.trans h
    exact .inl ⟨_, rfl⟩
  · cases (execDump_inside hl hb).symm.trans h
    exact .inr (.inl ⟨hl, hb, rfl⟩)
  · cases (execDump_legacy_outside hl hb).symm.trans h
    exact .inl ⟨_, rfl⟩
  · cases (execDump_legacy_inside hl hb).symm.trans h
    exact .inr (.inr ⟨hl, hb, rfl⟩)

theorem execLoad_cases (h : execLoad reg s = .next t) :
    (∃ cause, t = raiseFault cause s.ar s) ∨
    (s.legacy.dumpLoad = false ∧ s.ar.toNat + reg.val ≤ 4095 ∧
      t = advance (bumpAr reg (setRegs (loadBlock s.mem s.regs s.ar.toNat (reg.val + 1)) s))) ∨
    (s.legacy.dumpLoad = true ∧ (∀ i ≤ reg.val, (s.ar.toNat + i) % 256 ≤ 15) ∧
      t = advance (bumpAr reg (setRegs (legacyLoadBlock s.regs s.ar (reg.val + 1)) s))) := by
  rcases block_cases reg s with ⟨hl, hb⟩ | ⟨hl, hb⟩ | ⟨hl, hb⟩ | ⟨hl, hb⟩
  · cases (execLoad_outside hl hb).symm.trans h
    exact .inl ⟨_, rfl⟩
  · cases (execLoad_inside hl hb).symm.trans h
    exact .inr (.inl ⟨hl, hb, rfl⟩)
  · cases (execLoad_legacy_outside hl hb).symm.trans h
    exact .inl ⟨_, rfl⟩
  · cases (execLoad_legacy_inside hl hb).symm.trans h
    exact .inr (.inr ⟨hl, hb, rfl⟩)

end

/-! ### Every instruction answers a next state (R106) -/

/-- A check with a next state on either side answers one. -/
theorem exists_next_of_check (c : Prop) [Decidable c] (u v : State) :
    ∃ t, (if c then .next u else .next v : Answer) = .next t := by
  by_cases hc : c
  · exact ⟨u, if_pos hc⟩
  · exact ⟨v, if_neg hc⟩

theorem exec_exists_next (i : Instr) (s : State) : ∃ t, exec i s = .next t := by
  cases i
  case ret =>
    rcases List.eq_nil_or_concat' s.stack with hs | ⟨rest, top, hs⟩
    · exact ⟨_, execReturn_empty hs⟩
    · exact ⟨_, execReturn_pop hs⟩
  case callFunction => exact exists_next_of_check ..
  case dump | load =>
    simp only [exec, execDump, execLoad, dumpWith, loadWith]
    split <;> exact exists_next_of_check ..
  all_goals exact ⟨_, rfl⟩

/-- So does every cycle, for every decoder. -/
theorem cycle_exists_next (decoder : Byte → Byte → Decoded) (s : State) : ∃ t, cycle decoder s = .next t := by
  cases hv : s.fault.valid with
  | true => exact ⟨s, cycle_of_halted hv⟩
  | false =>
    by_cases hp : s.pc.toNat > 4094
    · exact ⟨_, cycle_of_fetchOutside hv hp⟩
    · have hp : s.pc.toNat ≤ 4094 := Nat.le_of_not_lt hp
      cases hd : decoder (fetchByte0 s) (fetchByte1 s) with
      | data b0 b1 => exact ⟨_, cycle_of_data hv hp hd⟩
      | op i =>
        obtain ⟨u, hu⟩ := exec_exists_next i (fetched (.op i) s)
        exact ⟨_, (cycle_of_op hv hp hd).trans (congrArg (endCycle timerDriver) hu)⟩

/-! ### The parts an instruction writes -/

/-- Every part that an instruction may change, on any of its branches. -/
def writtenParts : Instr → List Part
  | .call _ | .goto _ | .jumpOffset _ | .skipEq _ _ | .skipNEq _ _ | .skipEqReg _ _ | .skipNEqReg _ _ => [.pc]
  | .ret => [.pc, .stack, .ports]
  | .callFunction _ => [.pc, .stack, .fault]
  | .set _ _ | .addAssign _ _ | .copy _ _ | .or _ _ | .and _ _ | .xor _ _ | .addAssignReg _ _ | .subAssignReg _ _
  | .subtract _ _ | .shiftRight _ _ | .shiftLeft _ _ | .storeDelayTimer _ => [.regs, .pc]
  | .setAddressReg _ | .incrementAddressReg _ => [.ar, .pc]
  | .setDelayTimer _ => [.dt, .pc]
  | .setSoundTimer _ => [.st, .pc]
  | .clear | .setRand _ _ | .draw _ _ _ | .skipKeyPress _ | .skipNoKeyPress _ | .storeKeypress _ | .storeSpriteAddress _
  | .binaryCodedDecimal _ => [.ports, .pc]
  | .dump _ => [.regs, .mem, .ar, .pc, .fault]
  | .load _ => [.regs, .ar, .pc, .fault]

theorem onlyChanges_advance_bumpAr (reg : Reg) (s : State) : OnlyChanges [.ar, .pc] s (advance (bumpAr reg s)) :=
  onlyChanges_advance_setAr _ s

theorem exec_onlyChanges {i : Instr} {s t : State} (h : exec i s = .next t) : OnlyChanges (writtenParts i) s t := by
  cases i
  case ret =>
    rcases execReturn_cases h with ⟨-, rfl⟩ | ⟨rest, top, -, rfl⟩
    · exact ((onlyChanges_setPorts _ s).trans (onlyChanges_setPc _ _)).mono (by simp [writtenParts])
    · exact ((onlyChanges_setStack _ s).trans (onlyChanges_setPc _ _)).mono (by simp [writtenParts])
  case callFunction =>
    rcases execCallFunction_cases h with ⟨-, rfl⟩ | ⟨-, rfl⟩
    · exact (onlyChanges_setFault _ s).mono (by simp [writtenParts])
    · exact ((onlyChanges_setStack _ s).trans (onlyChanges_setPc _ _)).mono (by simp [writtenParts])
  case dump =>
    rcases execDump_cases h with ⟨cause, rfl⟩ | ⟨-, -, rfl⟩ | ⟨-, -, rfl⟩
    · exact (onlyChanges_setFault _ s).mono (by simp [writtenParts])
    · exact ((onlyChanges_setMem _ s).trans (onlyChanges_advance_bumpAr _ _)).mono (by simp [writtenParts])
    · exact ((onlyChanges_setRegs _ s).trans (onlyChanges_advance_bumpAr _ _)).mono (by simp [writtenParts])
  case load =>
    rcases execLoad_cases h with ⟨cause, rfl⟩ | ⟨-, -, rfl⟩ | ⟨-, -, rfl⟩
    · exact (onlyChanges_setFault _ s).mono (by simp [writtenParts])
    · exact ((onlyChanges_setRegs _ s).trans (onlyChanges_advance_bumpAr _ _)).mono (by simp [writtenParts])
    · exact ((onlyChanges_setRegs _ s).trans (onlyChanges_advance_bumpAr _ _)).mono (by simp [writtenParts])
  all_goals cases h
  case call | goto | jumpOffset | skipEq | skipNEq | skipEqReg | skipNEqReg => exact onlyChanges_setPc _ s
  case setAddressReg | incrementAddressReg => exact onlyChanges_advance_setAr _ s
  case setDelayTimer => exact (onlyChanges_setDt _ s).trans (onlyChanges_setPc _ _)
  case setSoundTimer => exact (onlyChanges_setSt _ s).trans (onlyChanges_setPc _ _)
  case clear | setRand | draw | skipKeyPress | skipNoKeyPress | storeKeypress | storeSpriteAddress | binaryCodedDecimal =>
    exact (onlyChanges_setPorts _ s).trans (onlyChanges_setPc _ _)
  all_goals exact onlyChanges_advance_setRegs _ s

section
variable {i : Instr} {s t : State}

/-- The timer phase alone writes the clock. -/
theorem exec_clock (h : exec i s = .next t) : t.clock = s.clock :=
  exec_onlyChanges h .clock (by cases i <;> simp [writtenParts])

theorem exec_legacy (h : exec i s = .next t) : t.legacy = s.legacy :=
  exec_onlyChanges h .legacy (by cases i <;> simp [writtenParts])

theorem exec_dt (h : exec i s = .next t) (hi : ∀ reg, i ≠ .setDelayTimer reg) : t.dt = s.dt :=
  exec_onlyChanges h .dt (by cases i <;> simp_all [writtenParts])

theorem exec_st (h : exec i s = .next t) (hi : ∀ reg, i ≠ .setSoundTimer reg) : t.st = s.st :=
  exec_onlyChanges h .st (by cases i <;> simp_all [writtenParts])

theorem ar_mem_writtenParts (h : Part.ar ∈ writtenParts i) :
    (∃ addr, i = .setAddressReg addr) ∨ (∃ reg, i = .incrementAddressReg reg) ∨ (∃ reg, i = .dump reg) ∨
      ∃ reg, i = .load reg := by
  cases i <;> simp_all [writtenParts]

/-- The exact change of memory: none, or the block of a Dump whose check holds (R172). -/
theorem exec_mem (h : exec i s = .next t) :
    t.mem = s.mem ∨ ∃ reg, i = .dump reg ∧ s.legacy.dumpLoad = false ∧ s.ar.toNat + reg.val ≤ 4095 ∧
      t.mem = storeBlock s.mem s.regs s.ar.toNat (reg.val + 1) := by
  cases i
  case ret => rcases execReturn_cases h with ⟨-, rfl⟩ | ⟨rest, top, -, rfl⟩ <;> exact .inl rfl
  case callFunction => rcases execCallFunction_cases h with ⟨-, rfl⟩ | ⟨-, rfl⟩ <;> exact .inl rfl
  case load => rcases execLoad_cases h with ⟨cause, rfl⟩ | ⟨-, -, rfl⟩ | ⟨-, -, rfl⟩ <;> exact .inl rfl
  case dump reg =>
    rcases execDump_cases h with ⟨cause, rfl⟩ | ⟨hl, hin, rfl⟩ | ⟨-, -, rfl⟩
    · exact .inl rfl
    · exact .inr ⟨reg, rfl, hl, hin, rfl⟩
    · exact .inl rfl
  all_goals
    cases h
    exact .inl rfl

/-- The exact change of the stack: none, a CallFunction's push below the bound, or a Return's pop (R121, R123). -/
theorem exec_stack (h : exec i s = .next t) :
    t.stack = s.stack ∨
    (∃ addr, i = .callFunction addr ∧ s.stack.length ≠ 24 ∧ t.stack = s.stack ++ [s.pc]) ∨
    (i = .ret ∧ ∃ top, s.stack = t.stack ++ [top]) := by
  cases i
  case ret =>
    rcases execReturn_cases h with ⟨-, rfl⟩ | ⟨rest, top, hs, rfl⟩
    · exact .inl rfl
    · exact .inr (.inr ⟨rfl, top, hs⟩)
  case callFunction addr =>
    rcases execCallFunction_cases h with ⟨-, rfl⟩ | ⟨hs, rfl⟩
    · exact .inl rfl
    · exact .inr (.inl ⟨addr, rfl, hs, rfl⟩)
  all_goals exact .inl (exec_onlyChanges h .stack (by simp [writtenParts]))

/-- An instruction writes the intent and diagnostic ports only (R236 to R238). -/
theorem exec_trace (h : exec i s = .next t) : t.ports.trace = s.ports.trace := by
  cases i
  case ret => rcases execReturn_cases h with ⟨-, rfl⟩ | ⟨rest, top, -, rfl⟩ <;> rfl
  case callFunction => rcases execCallFunction_cases h with ⟨-, rfl⟩ | ⟨-, rfl⟩ <;> rfl
  case dump => rcases execDump_cases h with ⟨cause, rfl⟩ | ⟨-, -, rfl⟩ | ⟨-, -, rfl⟩ <;> rfl
  case load => rcases execLoad_cases h with ⟨cause, rfl⟩ | ⟨-, -, rfl⟩ | ⟨-, -, rfl⟩ <;> rfl
  all_goals
    cases h
    rfl

end

/-! ### The legacy blocks in closed form (R174, R175) -/

section
variable {rs : RegFile} {ar : Word} {n : Nat}

theorem legacyDumpBlock_succ (rs : RegFile) (ar : Word) (n : Nat) :
    legacyDumpBlock rs ar (n + 1) =
      writeAt (legacyDumpBlock rs ar n) (regNo (legacyIndex ar n)) (readAt (legacyDumpBlock rs ar n) (regNo n)) := rfl

theorem legacyLoadBlock_succ (rs : RegFile) (ar : Word) (n : Nat) :
    legacyLoadBlock rs ar (n + 1) =
      writeAt (legacyLoadBlock rs ar n) (regNo n) (readAt (legacyLoadBlock rs ar n) (regNo (legacyIndex ar n))) := rfl

/-- Indices that are all registers' do not wrap at 256: they run on from the first. -/
theorem legacyIndex_eq_add (hn : n < 16) (hin : ∀ i ≤ n, legacyIndex ar i ≤ 15) : legacyIndex ar n = ar.toNat % 256 + n := by
  have := hin 0 (Nat.zero_le n)
  simp only [legacyIndex] at *
  omega

theorem eq_regNo_iff {r : Reg} (hn : n < 16) : r = regNo n ↔ r.val = n := by
  rw [Fin.ext_iff, val_regNo hn]

/-- The legacy Dump writes no register but those it indexes. -/
theorem readAt_legacyDumpBlock_of_ne (hin : ∀ i < n, legacyIndex ar i ≤ 15) {r : Reg}
    (hr : ∀ i < n, r.val ≠ legacyIndex ar i) : readAt (legacyDumpBlock rs ar n) r = readAt rs r := by
  induction n with
  | zero => rfl
  | succ n ih =>
    have hne : r ≠ regNo (legacyIndex ar n) :=
      mt (eq_regNo_iff (Nat.lt_succ_of_le (hin n n.lt_succ_self))).1 (hr n n.lt_succ_self)
    rw [legacyDumpBlock_succ, readAt_writeAt_ne _ hne]
    exact ih (fun i hi => hin i (hi.trans n.lt_succ_self)) (fun i hi => hr i (hi.trans n.lt_succ_self))

/-- With a first index of 0 each step writes a register into itself. -/
theorem legacyDumpBlock_of_zero (hn : n ≤ 16) (hb : ar.toNat % 256 = 0) : legacyDumpBlock rs ar n = rs := by
  induction n with
  | zero => rfl
  | succ n ih =>
    have hidx : legacyIndex ar n = n := by
      simp only [legacyIndex]
      omega
    rw [legacyDumpBlock_succ, ih (by omega), hidx]
    refine regFile_ext fun r => ?_
    rw [readAt_writeAt]
    split
    · rename_i hr
      rw [hr]
    · rfl

/-- The source of step `n` of the legacy Dump is an old register below `b`, or the copy of one that an earlier step made, so the
written registers repeat the first `b`. -/
theorem readAt_legacyDumpBlock (hn : n ≤ 16) (hin : ∀ i < n, legacyIndex ar i ≤ 15) {b : Nat} (hb : ar.toNat % 256 = b)
    (hpos : 0 < b) (r : Reg) :
    readAt (legacyDumpBlock rs ar n) r =
      if b ≤ r.val ∧ r.val < b + n then readAt rs (regNo ((r.val - b) % b)) else readAt rs r := by
  induction n generalizing r with
  | zero => rw [if_neg (by omega)]; rfl
  | succ n ih =>
    replace ih := ih (by omega) fun i hi => hin i (hi.trans n.lt_succ_self)
    have hidx : legacyIndex ar n = b + n := hb ▸ legacyIndex_eq_add (by omega) fun i hi => hin i (Nat.lt_succ_of_le hi)
    have hlt : b + n < 16 := hidx ▸ Nat.lt_succ_of_le (hin n n.lt_succ_self)
    have hsource : readAt (legacyDumpBlock rs ar n) (regNo n) = readAt rs (regNo (n % b)) := by
      rw [ih, val_regNo (by omega)]
      by_cases hnb : b ≤ n
      · rw [if_pos (by omega), Nat.mod_eq_sub_mod hnb]
      · rw [if_neg (by omega), Nat.mod_eq_of_lt (by omega)]
    rw [legacyDumpBlock_succ, readAt_writeAt, hsource, ih, hidx]
    simp only [eq_regNo_iff hlt]
    by_cases hr : r.val = b + n
    · rw [if_pos hr, if_pos (by omega), hr, Nat.add_sub_cancel_left]
    · rw [if_neg hr]
      have : (b ≤ r.val ∧ r.val < b + n) ↔ (b ≤ r.val ∧ r.val < b + (n + 1)) := by omega
      simp only [this]

/-- Step `n` of the legacy Load reads a register from `n` on, which no earlier step wrote. -/
theorem readAt_legacyLoadBlock (hn : n ≤ 16) (hin : ∀ i < n, legacyIndex ar i ≤ 15) (r : Reg) :
    readAt (legacyLoadBlock rs ar n) r = if r.val < n then readAt rs (regNo (legacyIndex ar r.val)) else readAt rs r := by
  induction n generalizing r with
  | zero => rfl
  | succ n ih =>
    replace ih := ih (by omega) fun i hi => hin i (hi.trans n.lt_succ_self)
    have hidx : legacyIndex ar n = ar.toNat % 256 + n :=
      legacyIndex_eq_add (by omega) fun i hi => hin i (Nat.lt_succ_of_le hi)
    have hsource : readAt (legacyLoadBlock rs ar n) (regNo (legacyIndex ar n)) = readAt rs (regNo (legacyIndex ar n)) := by
      rw [ih, val_regNo (Nat.lt_succ_of_le (hin n n.lt_succ_self)), if_neg (by omega)]
    rw [legacyLoadBlock_succ, readAt_writeAt, hsource, ih]
    simp only [eq_regNo_iff (Nat.lt_of_succ_le hn)]
    by_cases hr : r.val = n
    · rw [if_pos hr, if_pos (by omega), hr]
    · rw [if_neg hr]
      have : r.val < n ↔ r.val < n + 1 := by omega
      simp only [this]

end

/-! ### The registers an instruction writes (10_state.md R22) -/

section
variable {reg r : Reg} {s t : State}

theorem execDump_readReg_of_not_mayWrite (h : execDump reg s = .next t) (hr : ¬MayWrite s r (.dump reg)) :
    readReg r t = readReg r s := by
  rcases execDump_cases h with ⟨cause, rfl⟩ | ⟨-, -, rfl⟩ | ⟨hl, hin, rfl⟩
  · rfl
  · rfl
  · exact readAt_legacyDumpBlock_of_ne (fun i hi => hin i (Nat.le_of_lt_succ hi))
      fun i hi he => hr ⟨hl, i, Nat.le_of_lt_succ hi, he⟩

theorem execLoad_readReg_of_not_mayWrite (h : execLoad reg s = .next t) (hr : ¬MayWrite s r (.load reg)) :
    readReg r t = readReg r s := by
  have hlt : ¬r.val < reg.val + 1 := fun hlt => hr (Nat.le_of_lt_succ hlt)
  rcases execLoad_cases h with ⟨cause, rfl⟩ | ⟨-, -, rfl⟩ | ⟨-, hin, rfl⟩
  · rfl
  · exact (readAt_loadBlock _ _ _ reg.isLt r).trans (if_neg hlt)
  · exact (readAt_legacyLoadBlock reg.isLt (fun i hi => hin i (Nat.le_of_lt_succ hi)) r).trans (if_neg hlt)

/-- The three ends of an ALU instruction write the registers of their row; Dump and Load write those of their block. -/
theorem exec_readReg_of_not_mayWrite {i : Instr} (h : exec i s = .next t) (hr : ¬MayWrite s r i) : readReg r t = readReg r s := by
  cases i
  case dump => exact execDump_readReg_of_not_mayWrite h hr
  case load => exact execLoad_readReg_of_not_mayWrite h hr
  case set | addAssign | storeDelayTimer | copy | or | and | xor =>
    cases h
    exact onlyRegisters_writeReg _ _ s r (by simpa [MayWrite] using hr)
  case addAssignReg | subAssignReg | subtract =>
    cases h
    exact ((onlyRegisters_writeReg _ _ s).trans (onlyRegisters_writeReg 15 _ _)) r (by simpa [MayWrite] using hr)
  case shiftRight | shiftLeft =>
    cases h
    exact ((onlyRegisters_writeReg _ _ s).trans ((onlyRegisters_writeReg _ _ _).trans (onlyRegisters_writeReg 15 _ _))) r
      (by simpa [MayWrite] using hr)
  all_goals exact exec_onlyChanges h .regs (by simp [writtenParts]) r

end

/-! ### The statements -/

/-- Settles O11: the call pushes its own address, and any state with that stack pops it. -/
theorem returnUndoesCallFunction : Obligations.ReturnUndoesCallFunction := fun addr _ hs =>
  ⟨_, execCallFunction_push addr hs.ne, fun _ hu => ⟨_, execReturn_pop hu, rfl, rfl⟩⟩

/-- Settles O12: the flag path is a write of register 15. -/
theorem setFlagWritesRegister15Only : Obligations.SetFlagWritesRegister15Only := fun v s =>
  ⟨readAt_writeAt_same _ 15 v, onlyRegisters_writeReg 15 v s, onlyChanges_setRegs _ s⟩

/-- Settles O25: in closed form the written registers repeat those below the first index, and with a first index of 0 each
register is written into itself. -/
theorem legacyDumpRepeatsTheFirstRegisters : Obligations.LegacyDumpRepeatsTheFirstRegisters := by
  intro reg s hl hin
  have hin' : ∀ i < reg.val + 1, legacyIndex s.ar i ≤ 15 := fun i hi => hin i (Nat.le_of_lt_succ hi)
  refine ⟨_, execDump_legacy_inside hl hin, fun hb r => ?_, fun hpos => ⟨fun i hi => ?_, fun r hr => ?_⟩⟩
  · exact congrArg (readAt · r) (legacyDumpBlock_of_zero reg.isLt hb)
  · have hidx : legacyIndex s.ar i = s.ar.toNat % 256 + i :=
      legacyIndex_eq_add (by omega) fun j hj => hin j (hj.trans hi)
    have hval : (regNo (s.ar.toNat % 256 + i)).val = s.ar.toNat % 256 + i :=
      val_regNo (hidx ▸ Nat.lt_succ_of_le (hin i hi))
    refine (readAt_legacyDumpBlock reg.isLt hin' rfl hpos _).trans ?_
    rw [hval, if_pos (by omega), Nat.add_sub_cancel_left, readReg_eq]
  · exact (readAt_legacyDumpBlock reg.isLt hin' rfl hpos r).trans (if_neg (by omega))

/-- Settles O26: the closed form of the legacy Load reads the old registers. -/
theorem legacyLoadReadsTheOldRegisters : Obligations.LegacyLoadReadsTheOldRegisters := by
  intro reg s hl hin
  refine ⟨_, execLoad_legacy_inside hl hin, fun r => ?_⟩
  have hle : r.val < reg.val + 1 ↔ r ≤ reg := Nat.lt_succ_iff
  refine (readAt_legacyLoadBlock reg.isLt (fun i hi => hin i (Nat.le_of_lt_succ hi)) r).trans ?_
  simp only [hle, readReg_eq, legacyIndex]

/-- Settles O27: the Load of O22 reads the bytes that the Dump of O21 stored. -/
theorem loadUndoesDump : Obligations.LoadUndoesDump := by
  intro reg s hl hin
  obtain ⟨-, hdump, -⟩ := dumpStoresRegistersAtAr
  obtain ⟨-, hload, -⟩ := loadReadsRegistersAtAr
  obtain ⟨t, ht, hstored, -⟩ := hdump reg s hl hin
  refine ⟨t, ht, fun u hlegacy har hmem => ?_⟩
  obtain ⟨v, hv, hloaded, -⟩ := hload reg u (by rw [hlegacy, hl]) (by rw [har]; exact hin)
  refine ⟨v, hv, fun r hr => ?_⟩
  rw [hloaded r, if_pos hr, har, hmem, hstored r hr]

/-- Settles O42: an instruction keeps the fault record or is a fault entry, and every instruction and every cycle answers. -/
theorem everyInstructionCompletesOrReportsAFault : Obligations.EveryInstructionCompletesOrReportsAFault := by
  refine ⟨fun i s => ?_, cycle_exists_next⟩
  obtain ⟨t, ht⟩ := exec_exists_next i s
  refine ⟨t, ht, ?_⟩
  rcases exec_keepsFaultOrRaises ht with hf | ⟨cause, info, -, rfl⟩
  · exact .inl hf
  · exact .inr ⟨rfl, rfl, onlyChanges_setFault _ s⟩

/-- Settles O51: the registers of the row, and of `ar` the four instructions that list it among the parts they write. -/
theorem registersWrittenAreThoseOfTheTable : Obligations.RegistersWrittenAreThoseOfTheTable := fun _ _ _ h =>
  ⟨fun _ hr => exec_readReg_of_not_mayWrite h hr,
    fun har => ar_mem_writtenParts (not_not.1 fun hmem => har (exec_onlyChanges h .ar hmem))⟩

end Sys2Proof.Machine
end

section
/-! PROOFS. Whole-machine rules: what a step can do to a field, said once through the instruction it executes; then the invariant,
the timers, the halt, and the runs of the host, and the statements about them. -/

namespace Sys2Proof.Machine

/-! ### A field through a cycle -/

section
variable {decoder : Byte → Byte → Decoded} {s t : State}

/-- A field that `pc`, the ports and the fault record take no part in, and that the timer phase moves along `r`, moves along `r`
from the state before the cycle, or from the one in which the instruction of the cycle ended. -/
theorem cycle_field {α : Type} {f : State → α} {r : α → α → Prop} (hrefl : ∀ a, r a a) (hpc : ∀ v s, f (setPc v s) = f s)
    (hports : ∀ v s, f (setPorts v s) = f s) (hfault : ∀ v s, f (setFault v s) = f s)
    (htimers : ∀ s, r (f (timerDriver s)) (f s)) (h : cycle decoder s = .next t) :
    r (f t) (f s) ∨ ∃ i u, decoder (fetchByte0 s) (fetchByte1 s) = .op i ∧ exec i (fetched (.op i) s) = .next u ∧
      r (f t) (f u) := by
  rcases cycle_cases h with ⟨-, rfl⟩ | ⟨-, -, rfl⟩ | ⟨-, -, b0, b1, -, rfl⟩ | ⟨-, -, i, u, hd, hu, ⟨-, rfl⟩ | ⟨-, rfl⟩⟩
  · exact .inl (hrefl _)
  · rw [raiseFault_eq, clearPorts_eq, hfault, hports]
    exact .inl (hrefl _)
  · have hf : f (execDataWord (wordOfBytes (fetchByte0 s) (fetchByte1 s)) (fetched (.data b0 b1) s)) = f s := by
      rw [execDataWord_eq, hpc, hports, fetched_eq, hports]
    exact .inl (hf ▸ htimers _)
  · exact .inr ⟨i, _, hd, hu, hrefl _⟩
  · exact .inr ⟨i, u, hd, hu, htimers u⟩

/-- The exact change of memory in a step. -/
theorem step_mem (h : step s = .next t) :
    t.mem = s.mem ∨ ∃ reg, fetchedInstr s = .op (.dump reg) ∧ s.legacy.dumpLoad = false ∧ s.ar.toNat + reg.val ≤ 4095 ∧
      t.mem = storeBlock s.mem s.regs s.ar.toNat (reg.val + 1) := by
  rcases cycle_field (f := State.mem) Eq.refl (fun _ _ => rfl) (fun _ _ => rfl) (fun _ _ => rfl) timerDriver_mem h with
    hm | ⟨i, u, hd, hu, hm⟩
  · exact .inl hm
  · rcases exec_mem hu with hk | ⟨reg, rfl, hl, hin, hk⟩
    · exact .inl (hm.trans hk)
    · exact .inr ⟨reg, hd, hl, hin, hm.trans hk⟩

/-- The exact change of the stack in a step. -/
theorem step_stack (h : step s = .next t) :
    t.stack = s.stack ∨
    (∃ addr, fetchedInstr s = .op (.callFunction addr) ∧ s.stack.length ≠ 24 ∧ t.stack = s.stack ++ [s.pc]) ∨
    (fetchedInstr s = .op .ret ∧ ∃ top, s.stack = t.stack ++ [top]) := by
  rcases cycle_field (f := State.stack) Eq.refl (fun _ _ => rfl) (fun _ _ => rfl) (fun _ _ => rfl) timerDriver_stack h with
    hk | ⟨i, u, hd, hu, hk⟩
  · exact .inl hk
  · rw [hk]
    rcases exec_stack hu with he | ⟨addr, rfl, hlen, he⟩ | ⟨rfl, top, he⟩
    · exact .inl he
    · exact .inr (.inl ⟨addr, hd, hlen, he⟩)
    · exact .inr (.inr ⟨hd, top, he⟩)

/-- A step keeps the fault record or writes a valid one with a named cause. -/
theorem step_fault (h : step s = .next t) : t.fault = s.fault ∨ (t.fault.valid = true ∧ t.fault.cause ≠ .none) := by
  have hexec : ∀ {i d u}, exec i (fetched d s) = .next u →
      u.fault = s.fault ∨ (u.fault.valid = true ∧ u.fault.cause ≠ .none) := fun hu =>
    (exec_keepsFaultOrRaises hu).imp id fun ⟨_, _, hn, ht⟩ => ht ▸ ⟨rfl, hn⟩
  rcases cycle_cases h with ⟨-, rfl⟩ | ⟨-, -, rfl⟩ | ⟨-, -, b0, b1, -, rfl⟩ | ⟨-, -, i, u, -, hu, ⟨-, rfl⟩ | ⟨-, rfl⟩⟩
  · exact .inl rfl
  · exact .inr ⟨rfl, by simp⟩
  · exact .inl rfl
  · exact hexec hu
  · exact hexec (u := u) hu

end

/-! ### The invariant -/

theorem step_keeps_inv {s t : State} (hi : s.Inv) (h : step s = .next t) : t.Inv := by
  obtain ⟨hwf, hrange, hdepth, hclear, hnamed⟩ := hi
  refine ⟨?wf, ?range, ?depth, ?clear, ?named⟩
  case wf =>
    rcases step_mem h with hm | ⟨reg, -, -, -, hm⟩ <;> rw [hm]
    · exact hwf
    · exact wf_storeBlock _ _ _ hwf
  case range =>
    rcases step_mem h with hm | ⟨reg, -, -, hin, hm⟩ <;> rw [hm]
    · exact hrange
    · exact inRange_storeBlock _ (by rw [memSize_eq]; omega) hrange
  case depth =>
    rw [stackCap_eq] at *
    rcases step_stack h with hk | ⟨addr, -, hlen, hk⟩ | ⟨-, top, hk⟩
    · exact hk ▸ hdepth
    · rw [hk, List.length_append, List.length_singleton]
      omega
    · rw [hk, List.length_append] at hdepth
      omega
  case clear =>
    intro hv
    rcases step_fault h with hf | ⟨hf, -⟩
    · rw [hf] at hv ⊢
      exact hclear hv
    · exact absurd hf (by simp [hv])
  case named =>
    intro hv
    rcases step_fault h with hf | ⟨-, hn⟩
    · rw [hf] at hv ⊢
      exact hnamed hv
    · exact hn

/-- The image fits between LOAD_BASE and LOAD_LIMIT, below MEM_SIZE. -/
theorem construct_inv (img : List Byte) : (construct img).Inv := by
  have hfits : loadBase + (img.take (loadLimit - loadBase)).length ≤ memSize := by
    rw [List.length_take, loadBase_eq, loadLimit_eq, memSize_eq]
    omega
  exact ⟨wf_loadBytes _ _ ⟨.nil, nofun⟩, inRange_loadBytes _ hfits nofun, Nat.zero_le _, fun _ => rfl, nofun⟩

/-! ### The timer phase -/

theorem onlyChanges_setClock (v : Clock) (s : State) : OnlyChanges [.clock] s (setClock v s) := by
  intro p hp
  cases p <;> simp_all [Part.same]

theorem decay_le (dec : Nat) (v : Byte) : (decay dec v).toNat ≤ v.toNat := by
  rw [toNat_decay]
  exact Nat.sub_le ..

theorem decay_zero (v : Byte) : decay 0 v = v := BitVec.eq_of_toNat_eq (toNat_decay 0 v)

/-- No timer is above 255. -/
theorem decay_of_le {dec : Nat} (h : 255 ≤ dec) (v : Byte) : decay dec v = 0 := by
  refine BitVec.eq_of_toNat_eq ?_
  have := v.isLt
  rw [toNat_decay, Nat.sub_eq_zero_of_le (by omega)]
  rfl

theorem clockAfterReading_lastSample (c : Clock) : (clockAfterReading c).lastSample = c.lastSample := by
  unfold clockAfterReading
  split <;> rfl

theorem clockAfterReading_pendingTicks (c : Clock) : (clockAfterReading c).pendingTicks = c.pendingTicks := by
  unfold clockAfterReading
  split <;> rfl

/-- The fine mode (R241). -/
theorem clockAfterDecay_fine {s : State} (hl : s.legacy.coarseTimer = false) :
    clockAfterDecay s = { clockAfterReading s.clock with pendingTicks := 0 } := by
  simp [clockAfterDecay, hl]

theorem decrement_fine {s : State} (hl : s.legacy.coarseTimer = false) :
    decrement s = min 255 (s.clock.pendingTicks.toNat + timeReading s.clock) := by
  simp [decrement, decrementWith, hl, toNat_addTicks]

/-- The coarse mode (R242). -/
theorem clockAfterDecay_coarse {s : State} (hl : s.legacy.coarseTimer = true) :
    clockAfterDecay s = { clockAfterReading s.clock with lastSample := timeReading s.clock } := by
  simp [clockAfterDecay, hl]

theorem decrement_coarse {s : State} (hl : s.legacy.coarseTimer = true) :
    decrement s = (((timeReading s.clock : Int) - s.clock.lastSample) % 60).toNat := by
  simp [decrement, decrementWith, hl, coarseDecrement]

/-- The clock after the decay is read from the clock and the parameters alone. -/
theorem clockAfterDecay_congr {s t : State} (hc : t.clock = s.clock) (hl : t.legacy = s.legacy) :
    clockAfterDecay t = clockAfterDecay s := by
  simp only [clockAfterDecay, hc, hl]

/-! ### A cycle and its execute phase -/

section
variable {decoder : Byte → Byte → Decoded} {s t u : State}

/-- A cycle that has not faulted is its execute phase, or its data-word path, and then the timer phase (R109). -/
theorem cycle_decays (h : cycle decoder s = .next t) (ht : t.fault.valid = false) :
    ∃ u, ExecutePhase decoder s u ∧ t = timerDriver u := by
  rcases cycle_cases h with ⟨hs, rfl⟩ | ⟨-, -, rfl⟩ | ⟨-, -, b0, b1, hd, rfl⟩ | ⟨-, -, i, u, hd, hu, ⟨hf, rfl⟩ | ⟨-, rfl⟩⟩
  · exact absurd hs (by simp [ht])
  · exact absurd ht (by simp)
  · exact ⟨_, by rw [ExecutePhase, hd]; rfl, rfl⟩
  · exact absurd hf (by simp [ht])
  · exact ⟨u, by rw [ExecutePhase, hd]; exact hu, rfl⟩

/-- A halted engine keeps its state, and a cycle that faults is a fault entry after a write of the ports. -/
theorem cycle_keeps_timers_of_halted (h : cycle decoder s = .next t) (ht : t.fault.valid = true) :
    t.dt = s.dt ∧ t.st = s.st ∧ t.clock = s.clock := by
  cases hv : s.fault.valid with
  | true =>
    cases (cycle_of_halted hv).symm.trans h
    exact ⟨rfl, rfl, rfl⟩
  | false =>
    obtain ⟨cause, info, ports, -, rfl⟩ := cycleBy_raises exec_keepsFaultOrRaises timerDriver_fault hv h ht
    exact ⟨rfl, rfl, rfl⟩

theorem step_of_exec {i : Instr} (hv : s.fault.valid = false) (hp : s.pc.toNat ≤ 4094) (hd : fetchedInstr s = .op i)
    (hu : exec i (fetched (.op i) s) = .next u) : step s = .next (if halted u then u else timerDriver u) :=
  (cycle_of_op hv hp hd).trans (congrArg (endCycle timerDriver) hu)

theorem step_of_exec_completed {i : Instr} (hv : s.fault.valid = false) (hp : s.pc.toNat ≤ 4094) (hd : fetchedInstr s = .op i)
    (hu : exec i (fetched (.op i) s) = .next u) (hf : u.fault = s.fault) : step s = .next (timerDriver u) := by
  rw [step_of_exec hv hp hd hu, halted_eq, hf, hv]
  rfl

/-- The step of SetDelayTimer ends with the register less the decrement in `dt` (R191, R240). -/
theorem step_setDelayTimer {r : Reg} (hv : s.fault.valid = false) (hp : s.pc.toNat ≤ 4094)
    (hd : fetchedInstr s = .op (.setDelayTimer r)) (h : step s = .next t) :
    t.fault = s.fault ∧ t.pc = s.pc + 2 ∧ t.dt.toNat = (readReg r s).toNat - decrement s := by
  cases (step_of_exec_completed hv hp hd rfl rfl).symm.trans h
  refine ⟨rfl, rfl, (toNat_decay _ _).trans ?_⟩
  exact congrArg ((readReg r s).toNat - ·) (decrement_congr rfl rfl)

/-- The step of StoreDelayTimer reads `dt` before its own decay (R190). -/
theorem step_storeDelayTimer {r : Reg} (hv : s.fault.valid = false) (hp : s.pc.toNat ≤ 4094)
    (hd : fetchedInstr s = .op (.storeDelayTimer r)) (h : step s = .next t) : readReg r t = s.dt := by
  cases (step_of_exec_completed hv hp hd rfl rfl).symm.trans h
  exact readAt_writeAt_same _ r s.dt

/-- Below 4096 the default advance does not wrap. -/
theorem toNat_pc_add_two (hp : s.pc.toNat ≤ 4094) : (s.pc + 2).toNat = s.pc.toNat + 2 :=
  BitVec.toNat_add_of_lt (show s.pc.toNat + 2 < 65536 by omega)

end

/-! ### Runs of the host (R111) -/

theorem core_run_of_halted {s : State} (n : Nat) (h : s.fault.valid = true) :
    Host.Core.run Sys2Proof.core n s = .next s := by
  induction n with
  | zero => rfl
  | succ n ih => exact (core_run_succ n (cycle_of_halted h)).trans ih

/-- A run in two parts. -/
theorem core_run_add {s t : State} {m : Nat} (n : Nat) (h : Host.Core.run Sys2Proof.core m s = .next t) :
    Host.Core.run Sys2Proof.core (m + n) s = Host.Core.run Sys2Proof.core n t := by
  induction m generalizing s with
  | zero =>
    cases h
    rw [Nat.zero_add]
  | succ m ih =>
    obtain ⟨v, hv⟩ := cycle_exists_next decode s
    rw [Nat.add_right_comm, core_run_succ (m + n) hv]
    exact ih ((core_run_succ m hv).symm.trans h)

/-! ### The statements -/

/-- Settles O44: memory changes only by a block that is in range, the stack grows only below its bound, a fault names its cause;
and a TICK pulse writes the clock alone. -/
theorem stepKeepsTheInvariant : Obligations.StepKeepsTheInvariant :=
  ⟨fun _ _ => step_keeps_inv, fun _ hi => hi⟩

/-- Settles O46: the image is cut to the window of the load, so it lists no byte outside memory. -/
theorem constructionMeetsTheInvariant : Obligations.ConstructionMeetsTheInvariant := construct_inv

/-- Settles O45: reset is construction with the empty image. -/
theorem resetMeetsTheInvariant : Obligations.ResetMeetsTheInvariant := construct_inv []

/-- Settles O47: each value is a field of the reset state. -/
theorem resetLeavesTheListedValues : Obligations.ResetLeavesTheListedValues := by
  refine ⟨fun r => ?_, rfl, rfl, rfl, rfl, rfl, fun _ => rfl, rfl, rfl, rfl⟩
  simp [State.reset, readAt]

/-- Settles O49: a byte that a step changes lies in the block of a Dump. -/
theorem onlyDumpWritesMemory : Obligations.OnlyDumpWritesMemory := by
  intro s t a h hne
  simp only [readByte_eq] at hne
  rcases step_mem h with hm | ⟨reg, hd, hl, hin, hm⟩
  · exact absurd (by rw [hm]) hne
  · rw [hm, read_storeBlock] at hne
    have hblock : s.ar.toNat ≤ a ∧ a < s.ar.toNat + (reg.val + 1) := by
      by_contra hout
      exact hne (if_neg hout)
    exact ⟨hl, reg, hd, hblock.1, by omega, hin⟩

/-- Settles O50: the exact change of the stack, without the bound on its depth. -/
theorem onlyCallFunctionPushesAndReturnPops : Obligations.OnlyCallFunctionPushesAndReturnPops := by
  intro s t h
  rcases step_stack h with hk | ⟨addr, hd, -, hk⟩ | hpop
  · exact .inl hk
  · exact .inr (.inl ⟨addr, hd, hk⟩)
  · exact .inr (.inr hpop)

/-- Settles O52: the timer phase is the one place where the clock is written, and it reads the clock of the state before. -/
theorem stepKeepsTheParameters : Obligations.StepKeepsTheParameters := by
  intro s t h
  have hexec : ∀ {i d u}, exec i (fetched d s) = .next u → u.legacy = s.legacy ∧ u.clock = s.clock := fun {_ d _} hu =>
    ⟨exec_legacy (s := fetched d s) hu, exec_clock (s := fetched d s) hu⟩
  rcases cycle_cases h with ⟨-, rfl⟩ | ⟨-, -, rfl⟩ | ⟨-, -, b0, b1, -, rfl⟩ | ⟨-, -, i, u, -, hu, hend⟩
  · exact ⟨rfl, .inl rfl⟩
  · exact ⟨rfl, .inl rfl⟩
  · exact ⟨rfl, .inr rfl⟩
  · obtain ⟨hl, hc⟩ := hexec hu
    rcases hend with ⟨-, rfl⟩ | ⟨-, rfl⟩
    · exact ⟨hl, .inl hc⟩
    · exact ⟨hl, .inr (clockAfterDecay_congr hc hl)⟩

/-- Settles O33: the decay lowers a timer, and no instruction but its own sets it. -/
theorem timersRiseOnlyWhenSet : Obligations.TimersRiseOnlyWhenSet := by
  refine fun s t h => ⟨fun hn => ?_, fun hn => ?_⟩
  · rcases cycle_field (f := fun s => s.dt.toNat) Nat.le_refl (fun _ _ => rfl) (fun _ _ => rfl) (fun _ _ => rfl)
      (fun _ => decay_le _ _) h with hle | ⟨i, u, hd, hu, hle⟩
    · exact hle
    · exact exec_dt hu (fun reg hi => hn reg (hi ▸ hd)) ▸ hle
  · rcases cycle_field (f := fun s => s.st.toNat) Nat.le_refl (fun _ _ => rfl) (fun _ _ => rfl) (fun _ _ => rfl)
      (fun _ => decay_le _ _) h with hle | ⟨i, u, hd, hu, hle⟩
    · exact hle
    · exact exec_st hu (fun reg hi => hn reg (hi ▸ hd)) ▸ hle

/-- Settles O36: the way of a cycle that executes an instruction. -/
theorem stepRunsTheDecodedInstruction : Obligations.StepRunsTheDecodedInstruction :=
  fun _ _ hv hp hd _ hu => step_of_exec hv hp hd hu

/-- Settles O28: the step is the Dump of O21 and the timer phase, and the fetch reads the memory that they leave. -/
theorem dumpedBytesAreFetchedNext : Obligations.DumpedBytesAreFetchedNext := by
  intro reg s t hv hp hd hl hin h
  obtain ⟨-, hdump, -⟩ := dumpStoresRegistersAtAr
  obtain ⟨u, hu, hstored, hkept, -, hpc, hframe⟩ := hdump reg (fetched (.op (.dump reg)) s) hl hin
  cases (step_of_exec_completed hv hp hd hu (hframe .fault (by decide))).symm.trans h
  have hpcNat : (timerDriver u).pc.toNat = s.pc.toNat + 2 := (congrArg BitVec.toNat hpc).trans (toNat_pc_add_two hp)
  refine ⟨hpc, fun i hi he => ?_, fun i hi he => ?_, fun hclear => ?_⟩
  · rw [fetchByte0, ← he]
    exact hstored i hi
  · rw [fetchByte1, ← he]
    exact hstored i hi
  · rw [fetchByte0, fetchByte1, hpcNat]
    rw [hpcNat] at hclear
    exact ⟨hkept _ (by simp only [fetched_eq, setPorts_ar]; omega), hkept _ (by simp only [fetched_eq, setPorts_ar]; omega)⟩

/-- Settles O30: the decay of a timer is the difference clamped at 0, and a cycle that ends halted does not reach it. -/
theorem timersDecayOnceOnEveryCompletedCycle : Obligations.TimersDecayOnceOnEveryCompletedCycle := by
  refine ⟨fun dec s => ⟨toNat_decay dec s.dt, toNat_decay dec s.st, onlyChanges_timerDecay dec s⟩, fun s => ?_,
    fun decoder s t h ht => ?_, fun decoder s t => cycle_keeps_timers_of_halted⟩
  · rw [timerDecay_eq, decay_zero, decay_zero]
    rfl
  · obtain ⟨u, hu, rfl⟩ := cycle_decays h ht
    exact ⟨u, hu, toNat_decay _ u.dt, toNat_decay _ u.st, rfl, onlyChanges_timerDriver u⟩

/-- Settles O31: the counter saturates at 255, and no timer is above 255. -/
theorem fineDecrementIsTheCountedTicks : Obligations.FineDecrementIsTheCountedTicks := by
  refine ⟨fun s hl => ⟨decrement_fine hl, ?_, ?_⟩, fun s => ⟨toNat_addTicks _ 1, rfl, ?_⟩, fun s hl hfull => ?_⟩
  · rw [timerDriver_clock, clockAfterDecay_fine hl]
  · rw [timerDriver_clock, clockAfterDecay_fine hl]
    exact clockAfterReading_lastSample s.clock
  · exact onlyChanges_setClock _ s
  · have hdec : 255 ≤ decrement s := by
      rw [decrement_fine hl]
      omega
    exact ⟨decay_of_le hdec s.dt, decay_of_le hdec s.st⟩

/-- Settles O32: the remainder by 60 of a difference of integers is from 0 to 59. -/
theorem coarseDecrementIsTheElapsedSecondsModulo60 : Obligations.CoarseDecrementIsTheElapsedSecondsModulo60 := by
  intro s hl
  rw [decrement_coarse hl, timerDriver_clock, clockAfterDecay_coarse hl]
  refine ⟨fun elapsed he => ?_, ?_, rfl, clockAfterReading_pendingTicks s.clock⟩
  · rw [he]
    omega
  · omega

/-- Settles O34: the first step leaves `dt` at the register less its decrement, and the second reads it before its own decay. -/
theorem setThenStoreDelayTimerSeesOneDecay : Obligations.SetThenStoreDelayTimerSeesOneDecay := by
  intro r q s t u hv hp hset ht hstore hu
  have hp' : s.pc.toNat ≤ 4094 := by omega
  obtain ⟨hfault, hpc, hdt⟩ := step_setDelayTimer hv hp' hset ht
  have hvt : t.fault.valid = false := hfault ▸ hv
  have hpt : t.pc.toNat ≤ 4094 := by
    rw [hpc, toNat_pc_add_two hp']
    omega
  rw [step_storeDelayTimer hvt hpt hstore hu, hdt]

/-- Settles O39: no cycle of a halted engine changes it, and a reset is construction anew. -/
theorem haltedEngineStaysUntilReset : Obligations.HaltedEngineStaysUntilReset := fun _ hv =>
  ⟨fun _ => cycle_of_halted hv, fun n => ⟨core_run_of_halted n hv, runCycles_of_halted n hv⟩, fun _ _ => ⟨rfl, rfl⟩⟩

/-- Settles O53: the trace is written before execute, and no instruction writes it. -/
theorem traceRecordsTheStateBeforeExecute : Obligations.TraceRecordsTheStateBeforeExecute := by
  refine ⟨fun decoder s t hv hp h => ?_, fun decoder s t hv hp h => ?_⟩
  · rw [halted_eq] at hv
    rcases cycle_cases h with ⟨hs, -⟩ | ⟨-, hgt, -⟩ | ⟨-, -, b0, b1, hd, rfl⟩ | ⟨-, -, i, u, hd, hu, ⟨-, rfl⟩ | ⟨-, rfl⟩⟩
    · exact absurd hs (by simp [hv])
    · omega
    · rw [hd]
      rfl
    · rw [hd]
      exact exec_trace hu
    · rw [hd]
      exact exec_trace hu
  · cases (cycle_of_fetchOutside hv hp).symm.trans h
    rfl

/-- Settles O56: both runs take the same steps, and from a halt both stay. -/
theorem runStopsWhereSteppingStays : Obligations.RunStopsWhereSteppingStays := by
  intro n
  induction n with
  | zero => exact fun _ => rfl
  | succ n ih =>
    intro s
    cases hv : s.fault.valid with
    | true => exact (runCycles_of_halted _ hv).trans (core_run_of_halted _ hv).symm
    | false =>
      obtain ⟨t, ht⟩ := cycle_exists_next decode s
      rw [runCycles_succ n hv ht, core_run_succ n ht, ih t]

/-- Settles O58: the word 0 is Call(0x000), which is the default advance. -/
theorem zeroWordOnlyAdvances : Obligations.ZeroWordOnlyAdvances := by
  intro s hv hp h0 h1
  have hd : fetchedInstr s = .op (.call 0) := by
    rw [fetchedInstr, h0, h1]
    rfl
  exact ⟨_, step_of_exec_completed hv hp hd rfl rfl, rfl, (((onlyChanges_setPorts _ s).trans (onlyChanges_setPc _ _)).trans
    (onlyChanges_timerDriver _)).mono (by simp)⟩

/-! ### Running over zeros -/

/-- An engine that runs, with every byte of memory 0. -/
def Blank (s : State) : Prop := halted s = false ∧ ∀ a, readByte a s = 0

theorem step_blank {s : State} (hs : Blank s) (hp : s.pc.toNat ≤ 4094) :
    ∃ t, step s = .next t ∧ t.pc.toNat = s.pc.toNat + 2 ∧ Blank t := by
  obtain ⟨hv, hz⟩ := hs
  obtain ⟨t, ht, hpc, hframe⟩ := zeroWordOnlyAdvances s hv hp (hz _) (hz _)
  have hfault : t.fault = s.fault := hframe .fault (by decide)
  exact ⟨t, ht, by rw [hpc, toNat_pc_add_two hp], by rw [halted_eq, hfault]; exact hv,
    fun a => (hframe .mem (by decide) a).trans (hz a)⟩

theorem run_blank {s : State} (n : Nat) (hs : Blank s) (hp : s.pc.toNat + 2 * n ≤ 4096) :
    ∃ t, Host.Core.run Sys2Proof.core n s = .next t ∧ t.pc.toNat = s.pc.toNat + 2 * n ∧ Blank t := by
  induction n generalizing s with
  | zero => exact ⟨s, rfl, rfl, hs⟩
  | succ n ih =>
    obtain ⟨t, ht, hpc, hblank⟩ := step_blank hs (by omega)
    obtain ⟨u, hu, hpcu, hblanku⟩ := ih hblank (by omega)
    exact ⟨u, (core_run_succ n ht).trans hu, by omega, hblanku⟩

/-- Settles O57: from 0x200 the zeros of the empty image take `pc` to 0x1000, where the fetch faults. -/
theorem emptyImageRunsOffTheEnd : Obligations.EmptyImageRunsOffTheEnd := by
  have hrun : ∀ n ≤ 1792, ∃ t : State, Host.Core.run Sys2Proof.core n State.reset = .next t ∧
      t.pc.toNat = 0x200 + 2 * n ∧ Blank t :=
    fun n hn => run_blank n ⟨rfl, fun _ => rfl⟩ (Nat.add_le_add_left (Nat.mul_le_mul_left 2 hn) 0x200)
  refine ⟨fun n hn => ?_, ?_⟩
  · obtain ⟨t, ht, hpc, hv, -⟩ := hrun n hn
    exact ⟨t, ht, hpc, hv⟩
  · obtain ⟨t, ht, hpc, hv, -⟩ := hrun 1792 le_rfl
    have hend : t.pc = 0x1000 := BitVec.eq_of_toNat_eq hpc
    refine ⟨_, (core_run_add 1 ht).trans (core_run_succ 0 (cycle_of_fetchOutside hv (by omega))), ?_⟩
    simp [hend]

end Sys2Proof.Machine
end

section
/-! PROOFS. What the step relation does not read (10_state.md R38): an instruction on a state with other ports, or with other carried
parameters and another clock, answers the same state with those in it; so a cycle reads the ports not at all and the time source for
the timers alone, and is the relation at the arguments that its state carries. The statements follow. -/

namespace Sys2Proof.Machine

/-! ### The ports (R236 to R238) -/

/-- A check that a change of state leaves alone answers the changed states. -/
theorem next_of_check {c : Prop} [Decidable c] {f : State → State} {u v t : State}
    (h : (if c then .next u else .next v : Answer) = .next t) :
    (if c then .next (f u) else .next (f v) : Answer) = .next (f t) := by
  split at h
  · rename_i hc
    cases h
    exact if_pos hc
  · rename_i hc
    cases h
    exact if_neg hc

section
variable {i : Instr} {s t : State}

/-- An instruction adds to what the ports hold and reads nothing of it. -/
theorem exec_setPorts (ports : Ports) (h : exec i s = .next t) :
    ∃ ports', exec i (setPorts ports s) = .next (setPorts ports' t) := by
  cases i
  case ret =>
    rcases execReturn_cases h with ⟨hs, rfl⟩ | ⟨rest, top, hs, rfl⟩
    · exact ⟨_, execReturn_empty hs⟩
    · exact ⟨_, execReturn_pop hs⟩
  case callFunction => exact ⟨ports, next_of_check (f := setPorts ports) h⟩
  case dump | load =>
    simp only [exec, execDump, execLoad, dumpWith, loadWith] at h ⊢
    refine ⟨ports, ?_⟩
    split at h
    · exact (if_pos ‹_›).trans (next_of_check (f := setPorts ports) h)
    · exact (if_neg ‹_›).trans (next_of_check (f := setPorts ports) h)
  all_goals
    cases h
    exact ⟨_, rfl⟩

/-! ### The carried parameters and the clock -/

/-- A state with other carried parameters and another clock. -/
def recarry (legacy : Legacy) (clock : Clock) (s : State) : State := setLegacy legacy (setClock clock s)

theorem execWith_recarry {p : Params} (legacy : Legacy) (clock : Clock) (h : execWith p i s = .next t) :
    execWith p i (recarry legacy clock s) = .next (recarry legacy clock t) := by
  cases i
  case ret =>
    rcases execReturn_cases h with ⟨hs, rfl⟩ | ⟨rest, top, hs, rfl⟩
    · exact execReturn_empty hs
    · exact execReturn_pop hs
  case callFunction => exact next_of_check (f := recarry legacy clock) h
  case dump | load =>
    simp only [execWith, dumpWith, loadWith] at h ⊢
    split at h
    · exact (if_pos ‹_›).trans (next_of_check (f := recarry legacy clock) h)
    · exact (if_neg ‹_›).trans (next_of_check (f := recarry legacy clock) h)
  all_goals
    cases h
    rfl

/-- `exec` reads the parameters that the state carries, and with these kept another clock is not read. -/
theorem exec_setClock (clock : Clock) (h : exec i s = .next t) : exec i (setClock clock s) = .next (setClock clock t) := by
  have hwith : execWith (carriedParams s) i (setClock clock s) = .next (recarry s.legacy clock t) :=
    execWith_recarry s.legacy clock ((execWith_carried i s).trans h)
  rw [← exec_legacy h] at hwith
  exact (execWith_carried i (setClock clock s)).symm.trans hwith

end

/-! ### A cycle -/

section
variable {timers : State → State} {decoder : Byte → Byte → Decoded} {s t u : State}

theorem endCycle_of_fault (h : u.fault.valid = true) : endCycle timers (.next u) = .next u := by
  simp [endCycle, h]

theorem endCycle_of_completed (h : u.fault.valid = false) : endCycle timers (.next u) = .next (timers u) := by
  simp [endCycle, h]

/-- The relation reads neither the carried parameters nor the clock. -/
theorem cycleWith_recarry {p : Params} {dec : Nat} (legacy : Legacy) (clock : Clock)
    (h : cycleWith p decoder dec s = .next t) :
    cycleWith p decoder dec (recarry legacy clock s) = .next (recarry legacy clock t) := by
  rcases cycleBy_cases h with ⟨hv, rfl⟩ | ⟨hv, hp, rfl⟩ | ⟨hv, hp, b0, b1, hd, rfl⟩ | ⟨hv, hp, i, u, hd, hu, hend⟩
  · exact cycleBy_of_halted hv
  · exact cycleBy_of_fetchOutside hv hp
  · exact cycleBy_of_data hv hp hd
  · have hwith : cycleWith p decoder dec (recarry legacy clock s) = endCycle (timerDecay dec) (.next (recarry legacy clock u)) :=
      (cycleBy_of_op (s := recarry legacy clock s) hv hp hd).trans (congrArg (endCycle _) (execWith_recarry legacy clock hu))
    rcases hend with ⟨hf, rfl⟩ | ⟨hf, rfl⟩
    · exact hwith.trans (endCycle_of_fault hf)
    · exact hwith.trans (endCycle_of_completed hf)

/-- The timer phase after an execute phase, which leaves the clock and the parameters alone. -/
theorem timerDriver_of_carried (hc : u.clock = s.clock) (hl : u.legacy = s.legacy) :
    timerDriver u = setClock (clockAfterDecay s) (timerDecay (decrement s) u) := by
  rw [timerDriver, clockAfterDecay_congr hc hl, decrement_congr hc hl]

/-- A cycle is the relation at the arguments that the state carries, and then the clock's move if it did not fault. -/
theorem cycle_eq_cycleWith_carried (h : cycle decoder s = .next t) :
    ∃ u, cycleWith (carriedParams s) decoder (decrement s) s = .next u ∧
      t = if halted u then u else setClock (clockAfterDecay s) u := by
  rcases cycleBy_cases (h : cycleBy exec memSize timerDriver decoder s = .next t) with
    ⟨hv, rfl⟩ | ⟨hv, hp, rfl⟩ | ⟨hv, hp, b0, b1, hd, rfl⟩ | ⟨hv, hp, i, u, hd, hu, hend⟩
  · exact ⟨_, cycleBy_of_halted hv, (if_pos hv).symm⟩
  · exact ⟨_, cycleBy_of_fetchOutside hv hp, (if_pos rfl).symm⟩
  · exact ⟨_, cycleBy_of_data hv hp hd, (if_neg (by simp [hv])).symm⟩
  · have hwith : cycleWith (carriedParams s) decoder (decrement s) s = endCycle (timerDecay (decrement s)) (.next u) :=
      (cycleBy_of_op hv hp hd).trans (congrArg (endCycle _) ((execWith_carried i (fetched (.op i) s)).trans hu))
    rcases hend with ⟨hf, rfl⟩ | ⟨hf, rfl⟩
    · exact ⟨_, hwith.trans (endCycle_of_fault hf), (if_pos hf).symm⟩
    · refine ⟨_, hwith.trans (endCycle_of_completed hf), ?_⟩
      rw [if_neg (by simp [hf])]
      exact timerDriver_of_carried (exec_clock (s := fetched (.op i) s) hu) (exec_legacy (s := fetched (.op i) s) hu)

/-- With another clock a cycle ends in the same state with that clock, or the timer phase starts from it. -/
theorem cycle_setClock (clock : Clock) (h : cycle decoder s = .next t) :
    cycle decoder (setClock clock s) = .next (setClock clock t) ∨
    ∃ u, t = timerDriver u ∧ cycle decoder (setClock clock s) = .next (timerDriver (setClock clock u)) := by
  rcases cycle_cases h with ⟨hv, rfl⟩ | ⟨hv, hp, rfl⟩ | ⟨hv, hp, b0, b1, hd, rfl⟩ | ⟨hv, hp, i, u, hd, hu, hend⟩
  · exact .inl (cycle_of_halted hv)
  · exact .inl (cycle_of_fetchOutside hv hp)
  · exact .inr ⟨_, rfl, cycle_of_data hv hp hd⟩
  · have hcycle : cycle decoder (setClock clock s) = endCycle timerDriver (.next (setClock clock u)) :=
      (cycle_of_op (s := setClock clock s) hv hp hd).trans (congrArg (endCycle _) (exec_setClock clock hu))
    rcases hend with ⟨hf, rfl⟩ | ⟨hf, rfl⟩
    · exact .inl (hcycle.trans (endCycle_of_fault hf))
    · exact .inr ⟨u, rfl, hcycle.trans (endCycle_of_completed hf)⟩

theorem onlyChanges_timerDriver_setClock (clock : Clock) (s : State) :
    OnlyChanges [.dt, .st, .clock] (timerDriver s) (timerDriver (setClock clock s)) := by
  intro p hp
  cases p <;> simp_all [Part.same]

end

/-! ### The statements -/

/-- Settles O54: an instruction answers the same state with other ports, and a cycle clears the ports as it begins. -/
theorem portsAreNeverRead : Obligations.PortsAreNeverRead := by
  refine ⟨fun i s t u ports ht hu => ?_, fun decoder s ports hv => ?_⟩
  · obtain ⟨ports', hports⟩ := exec_setPorts ports ht
    cases hports.symm.trans hu
    exact onlyChanges_setPorts ports' t
  · rw [halted_eq] at hv
    simp only [cycle, cycleBy, halted_eq, setPorts_fault, hv]
    rfl

/-- Settles O55: the two cycles differ by the clock, or by a timer phase that starts from the two clocks. -/
theorem timeSourceReachesTheTimersOnly : Obligations.TimeSourceReachesTheTimersOnly := by
  intro decoder s t u clock ht hu
  rcases cycle_setClock clock ht with hc | ⟨v, rfl, hc⟩
  · cases hc.symm.trans hu
    exact (onlyChanges_setClock clock t).mono (by simp)
  · cases hc.symm.trans hu
    exact onlyChanges_timerDriver_setClock clock v

/-- Settles O60: from left to right by the four ways of a cycle; from right to left because every cycle answers and the relation
answers one state. -/
theorem cycleIsTheRelationAtItsCarriedArguments : Obligations.CycleIsTheRelationAtItsCarriedArguments := by
  refine ⟨fun decoder s t => ⟨cycle_eq_cycleWith_carried, ?_⟩,
    fun p decoder dec s t legacy clock => cycleWith_recarry legacy clock⟩
  rintro ⟨u, hu, rfl⟩
  obtain ⟨t, ht⟩ := cycle_exists_next decoder s
  obtain ⟨v, hv, rfl⟩ := cycle_eq_cycleWith_carried ht
  cases hv.symm.trans hu
  exact ht

end Sys2Proof.Machine
end
